-- ==== Sys2Proof/Word.lean ====
section
/-! DEFINITION. The data types of the spec's notation: bytes, byte strings and register words (00_scope R9, R10). -/

namespace Sys2Proof

/-- A byte: an unsigned 8-bit value (00_scope R10). -/
abbrev Byte := BitVec 8

/-- A byte string, first byte first (00_scope R10). -/
abbrev Bytes := List Byte

/-- A register value or bus word: a 32-bit unsigned number (00_scope R9). -/
abbrev Word := BitVec 32

/-- `zeros(n)` of 00_scope R10. -/
def zeros (n : Nat) : Bytes := List.replicate n 0

end Sys2Proof
end

