-- ==== Sys2Proof/Config.lean ====
section
/-! DEFINITION. The implementation parameters of 00_scope R6 and the free values. A constant with no body is OPEN in
the spec: nothing is provable of its value, so a claim holds whatever it is. -/

namespace Sys2Proof

/-- The direction of an engine call (20_memory R52). -/
inductive EngineDir where
  | enc
  | dec
  deriving DecidableEq, Repr

/-- The engine's response (20_memory R52, 40_tag_protocol R99). -/
inductive EngineReply where
  | ok (out : Bytes)
  | fail
  deriving DecidableEq, Repr, Inhabited

/-- An engine: direction, key, IV, data to response. Being a function of these alone, it is total and deterministic
and receives nothing else (40_tag_protocol R99, R103). -/
abbrev Engine := EngineDir → Bytes → Bytes → Bytes → EngineReply

/-- Exactly the arguments the command latency may depend on (70_reset_and_hazards R170). No window byte, no RAM byte
and no TAGINLEN is among them. -/
structure LatArgs where
  opcode : BitVec 4
  variant : BitVec 2
  alMode : Bool
  aadp : Bool
  hdrLen : BitVec 16
  aadLen : BitVec 16
  inLen : BitVec 16
  /-- The outcome of Precheck, 0 where it passes (and ILLEGAL_CMD for an illegal word, which outranks it). -/
  precheck : BitVec 4
  deriving DecidableEq, Repr

namespace Config

/-- MSG_RAM_BYTES: this hardware takes 4096 (00_scope R6). -/
def msgRamBytes : Nat := 4096

/-- The length of the bus window, from BLOCK_BASE on (20_memory R50). -/
def windowBytes : Nat := 0x1000 + msgRamBytes

/-- The 64 KiB slots into which BLOCK_BASE, a multiple of 0x10000, cuts the bus's addresses (00_scope R6). -/
def slotBytes : Nat := 0x10000

/-- OPEN (93 U1): the number of the 64 KiB slot the platform gives the block. -/
opaque blockSlot : BitVec 16

/-- BLOCK_BASE: the bus address of offset 0x000, a multiple of 0x10000 (00_scope R6, 20_memory R50). -/
def blockBase : Nat := blockSlot.toNat * slotBytes

/-- OPEN (93 U6): the level of the ENGINE_PRESENT input at launch (00_scope R6). -/
opaque enginePresent : Bool

/-- OPEN (93 U3): how many cycles INIT lasts beyond its least length of one. -/
opaque initExtraCycles : Nat

/-- INIT_CYCLES, at least 1 (00_scope R6). No step reads it: the model has no time (70_reset_and_hazards R175). -/
def initCycles : Nat := initExtraCycles + 1

/-- OPEN (93 U4): LAT, the cycles from an accepted CMD write to completion (70_reset_and_hazards R170). No step reads it. -/
opaque lat : LatArgs → Nat

/-- OPEN (93 U5): ENGINE, the external AES-CBC engine (40_tag_protocol R99). -/
opaque engine : Engine

/-- A free value (93 U10): the n-th byte drawn by a RAM read while the block is busy (70_reset_and_hazards R163). -/
opaque freeByte : Nat → Byte

end Config
end Sys2Proof
end

