-- ==== Sys2Proof/Syntax.lean ====
section
/-! DEFINITION. The syntax: the commands (30_encoding R73-R76, one constructor per row of spec/opcode_table.json) and the
host program notation (30_encoding R79-R85). -/

namespace Sys2Proof

/-- A command word, decoded. No command has an operand field (30_encoding R77); the fields kept by the illegal
constructors are the bits that distinguish the words of one row, so that no bit of a word is lost. -/
inductive Instr where
  /-- 0x0, 43_control_ops R131 -/
  | nop
  /-- 0x1, 41_content_ops R108 -/
  | enc
  /-- 0x2, 41_content_ops R112 -/
  | dec
  /-- 0x3, 42_tag_ops R117 -/
  | tag
  /-- 0x4, 42_tag_ops R120 -/
  | verify
  /-- 0x5, 43_control_ops R132 -/
  | zeroize
  /-- 0x6 and 0x7, 43_control_ops R133; `low` is bit 0 -/
  | reserved67 (low : BitVec 1)
  /-- 0x8 to 0xF, 43_control_ops R133; `low` is bits 2:0 -/
  | reserved8F (low : BitVec 3)
  /-- bits 31:4 not all zero, 43_control_ops R133; `upper` is bits 31:4 and `opcode` bits 3:0 -/
  | illegalUpper (upper : BitVec 28) (opcode : BitVec 4)
  deriving DecidableEq, Repr

/-- The access widths of the host notation (30_encoding R79). -/
inductive Width where
  | w8
  | w16
  | w32
  deriving DecidableEq, Repr

/-- The name of a host-side variable (30_encoding R79); it is not block state. -/
abbrev VarName := String

/-- The value of a host-side variable: a number from a read, or a byte string from `rdbytes` (30_encoding R79, R84). -/
inductive HostVal where
  | num (v : Word)
  | bytes (bs : Bytes)
  deriving DecidableEq, Repr

/-- A host instruction, as pseudo-instructions expand to them (30_encoding R79, R84). -/
inductive HostInstr where
  /-- `wr32`, `wr16`, `wr8`: the low bytes of `v` are written -/
  | wr (w : Width) (off : Nat) (v : Word)
  /-- `rd32`, `rd16`, `rd8` -/
  | rd (w : Width) (off : Nat) (name : VarName)
  /-- repeats a read of STATUS into `s` until BUSY is 0 -/
  | poll
  /-- `rdbytes` begins: the variable is the empty byte string (no bus access) -/
  | startBytes (name : VarName)
  /-- one of `rdbytes`'s reads: its bytes go to the end of the variable's byte string -/
  | rdAppend (w : Width) (off : Nat) (name : VarName)
  deriving DecidableEq, Repr

/-- A line of a host program: a host instruction or a pseudo-instruction (30_encoding R79-R85). -/
inductive Line where
  | wr32 (off : Nat) (v : Word)
  | wr16 (off : Nat) (v : Word)
  | wr8 (off : Nat) (v : Word)
  | rd32 (off : Nat) (name : VarName)
  | rd16 (off : Nat) (name : VarName)
  | rd8 (off : Nat) (name : VarName)
  | poll
  /-- `issue OP` (R81) -/
  | issue (op : Instr)
  /-- `issue 0xNNNNNNNN` (R81) -/
  | issueWord (w : Word)
  /-- `run OP` (R82) -/
  | run (op : Instr)
  /-- `run 0xNNNNNNNN` (R82) -/
  | runWord (w : Word)
  /-- `wrbytes off, <bytes>` (R83) -/
  | wrbytes (off : Nat) (bs : Bytes)
  /-- `rdbytes off, n -> name` (R84) -/
  | rdbytes (off n : Nat) (name : VarName)
  /-- `expect name == v` (R85): an assertion about the end state, not an access -/
  | expect (name : VarName) (v : HostVal)
  /-- `cfg VARIANT=a ALMODE=b AADP=c IE=d` (R85) -/
  | cfg (variant : BitVec 2) (alMode aadp ie : Bool)
  deriving DecidableEq, Repr

end Sys2Proof
end

