-- ==== Sys2Proof/Machine/State.lean ====
section
/-! DEFINITION. The state of the machine as plain data: the block's state (10_state R17-R48), its two input pins, and the
host side of a run (00_scope R15, R16). -/

namespace Sys2Proof.Machine

/-- The sequencer state (10_state R43). -/
inductive SeqState where
  | init
  | idle
  | exec
  deriving DecidableEq, Repr

/-- The error codes that exist (60_exceptions R137); codes 8-15 are never produced (93 U15). -/
inductive ErrCode where
  | none
  | authFail
  | invalidKeyLength
  | engineFailure
  | engineUnavailable
  | illegalCmd
  | illegalCfg
  | rangeError
  deriving DecidableEq, Repr

/-- CTRL.ALMODE (10_state R22, 40_tag_protocol R90). -/
inductive AlMode where
  /-- 0: AL counts the whole authInput -/
  | authInput
  /-- 1: AL counts the header only -/
  | headerOnly
  deriving DecidableEq, Repr

/-- CTRL's stored fields; its other bits are reserved, read 0 and hold nothing (10_state R19, R22). -/
structure Ctrl where
  variant : BitVec 2
  alMode : AlMode
  aadp : Bool
  ie : Bool
  deriving DecidableEq, Repr

/-- The registers only a host write changes: CTRL and the operand registers (10_state R22, R30-R35). -/
structure Operands where
  ctrl : Ctrl
  cekLen : BitVec 7
  tagInLen : BitVec 6
  hdrOff : BitVec 16
  hdrLen : BitVec 16
  aadOff : BitVec 16
  aadLen : BitVec 16
  inOff : BitVec 16
  inLen : BitVec 16
  outOff : BitVec 16
  deriving DecidableEq, Repr

/-- The windows the host loads and a completion clears (10_state R38-R40). -/
structure Windows where
  cekw : Vector Byte 64
  ivw : Vector Byte 16
  tagInw : Vector Byte 32
  deriving DecidableEq, Repr

/-- The read-only results of a command (10_state R36, R37, R41). -/
structure Outputs where
  outLen : BitVec 16
  tagOutLen : BitVec 6
  tagOutw : Vector Byte 32
  deriving DecidableEq, Repr

/-- STATUS's stored bits (10_state R29). BUSY is computed from SEQSTATE and ENGRDY is the latch of that name. -/
structure Flags where
  done : Bool
  err : Bool
  authOk : Bool
  ovr : Bool
  errCode : ErrCode
  deriving DecidableEq, Repr

/-- The message RAM (10_state R42): its non-zero bytes by RAM offset, offsets strictly rising. An unlisted offset reads
`Memory.unlisted`. -/
abbrev Memory := List Host.Cell

/-- What an unlisted byte of the RAM reads as: 0x00, its reset value (10_state R48). -/
def Memory.unlisted : Byte := 0

/-- The canonical form: offsets strictly rising and inside the RAM, no byte equal to what an unlisted offset reads as. -/
abbrev Memory.wf (m : Memory) : Prop :=
  m.Pairwise (fun a b => a.1 < b.1) ∧ ∀ c ∈ m, c.1 < Config.msgRamBytes ∧ c.2 ≠ Memory.unlisted

/-- A bus master running a host program (00_scope R15, 30_encoding R79). -/
structure Master where
  /-- the host instructions left to run, each with its line number -/
  prog : List (Nat × HostInstr)
  /-- the host-side variables, one entry a name -/
  vars : List (VarName × HostVal)
  /-- `some l`: the program has stopped with outcome `buserror(l)` -/
  stopped : Option Nat
  deriving DecidableEq, Repr

/-- Who moves next (20_memory R65, R66). A turn of an agent that has nothing to do changes nothing. -/
inductive Turn where
  /-- SEQ: the end of INIT, or the completion of a command -/
  | seq
  /-- the master of that number runs one host instruction -/
  | master (i : Nat)
  /-- the input RESET is asserted (70_reset_and_hazards R156) -/
  | assertReset
  /-- the input RESET is released (70_reset_and_hazards R157) -/
  | releaseReset
  /-- the input ENGINE_PRESENT takes a level (10_state R45) -/
  | enginePin (present : Bool)
  deriving DecidableEq, Repr

/-- The state of a run: the block, its pins, the masters and the order of their turns. -/
structure State where
  ops : Operands
  win : Windows
  out : Outputs
  flags : Flags
  /-- the message RAM (10_state R42) -/
  ram : Memory
  /-- SEQSTATE (10_state R43) -/
  seqState : SeqState
  /-- PENDING, the accepted command word (10_state R44) -/
  pending : Word
  /-- ENGRDY, the latched ENGINE_PRESENT (10_state R45) -/
  engRdy : Bool
  /-- the level of the input RESET (70_reset_and_hazards R156) -/
  rst : Bool
  /-- the level of the input ENGINE_PRESENT (10_state R45) -/
  enginePresent : Bool
  /-- the model's own: how many bytes busy RAM reads have drawn (70_reset_and_hazards R163) -/
  draws : Nat
  /-- the bus masters (20_memory R66) -/
  masters : List Master
  /-- the model's own: the turns to come (20_memory R65) -/
  schedule : List Turn
  deriving DecidableEq, Repr

/-- The machine stops with no fault: each error of the spec is an error completion of a command, a bus error returned to
one master, or the OVR flag, and after each of them the block goes on (60_exceptions R136, R148, R149). -/
inductive Fault where
  deriving DecidableEq, Repr

/-- Why a step has no meaning. -/
inductive Refusal where
  /-- An instruction without a meaning; raised by no arm of this model. Safe. -/
  | notModelled (mnemonic : String)
  /-- A master's bus access while RESET is asserted: 'outside this spec; a model refuses them' (70_reset_and_hazards R156).
  Raised by a master's turn. Safe: nothing is claimed of such an access. -/
  | busAccessInReset
  /-- A bus access outside the block's window: 'not decoded by HAUTH and ... outside this spec' (20_memory R50).
  Raised by a master's turn. Safe: nothing is claimed of such an access. -/
  | outsideWindow
  deriving DecidableEq, Repr

/-- CTRL and the operand registers after reset (10_state R48). -/
def Operands.reset : Operands where
  ctrl := { variant := 0, alMode := .authInput, aadp := false, ie := false }
  cekLen := 0
  tagInLen := 0
  hdrOff := 0
  hdrLen := 0
  aadOff := 0
  aadLen := 0
  inOff := 0
  inLen := 0
  outOff := 0

/-- The host-loaded windows after reset, and after every completion but NOP's (10_state R48, 43_control_ops R130). -/
def Windows.zero : Windows where
  cekw := Vector.replicate 64 0
  ivw := Vector.replicate 16 0
  tagInw := Vector.replicate 32 0

/-- The results after reset, after issue and after an error (10_state R48, 43_control_ops R125, R129). -/
def Outputs.zero : Outputs where
  outLen := 0
  tagOutLen := 0
  tagOutw := Vector.replicate 32 0

/-- STATUS's stored bits after reset (10_state R48). -/
def Flags.reset : Flags where
  done := false
  err := false
  authOk := false
  ovr := false
  errCode := .none

/-- The state immediately after reset release, before INIT ends (10_state R48), on a machine whose input ENGINE_PRESENT
has the level `present`, with no master and no turn laid down. -/
def State.resetWith (present : Bool) : State where
  ops := .reset
  win := .zero
  out := .zero
  flags := .reset
  ram := []
  seqState := .init
  pending := 0
  engRdy := present
  rst := false
  enginePresent := present
  draws := 0
  masters := []
  schedule := []

/-- The machine right after reset. ENGINE_PRESENT is OPEN per launch (00_scope R6). -/
def State.reset : State := .resetWith Config.enginePresent

end Sys2Proof.Machine
end

