-- ==== Sys2Proof/Machine/Flags.lean ====
section
/-! DEFINITION. Every flag computation: the STATUS word, its write-one-to-clear bits, the flags at issue and at completion,
OVR and IRQ (10_state R29, R46; 43_control_ops R125, R129; 70_reset_and_hazards R162). -/

namespace Sys2Proof.Machine

/-- The number of an error code (60_exceptions R137). -/
def ErrCode.number : ErrCode → BitVec 4
  | .none => 0
  | .authFail => 1
  | .invalidKeyLength => 2
  | .engineFailure => 3
  | .engineUnavailable => 4
  | .illegalCmd => 5
  | .illegalCfg => 6
  | .rangeError => 7

/-- STATUS.BUSY: 1 exactly when SEQSTATE is not IDLE (10_state R43). -/
def State.busy (s : State) : Bool := s.seqState != .idle

/-- The output IRQ (10_state R46). -/
def State.irq (s : State) : Bool := s.flags.done && s.ops.ctrl.ie

/-- The word a read of STATUS returns (10_state R29): ERRCODE 11:8, OVR 5, ENGRDY 4, AUTHOK 3, ERR 2, DONE 1, BUSY 0. -/
def statusWord (s : State) : Word :=
  0#20 ++ s.flags.errCode.number ++ 0#2 ++ BitVec.ofBool s.flags.ovr ++ BitVec.ofBool s.engRdy
    ++ BitVec.ofBool s.flags.authOk ++ BitVec.ofBool s.flags.err ++ BitVec.ofBool s.flags.done ++ BitVec.ofBool s.busy

/-- A write of `v` to STATUS: 1 clears DONE (bit 1), ERR (2) and OVR (5); nothing else changes (10_state R29). -/
def Flags.w1c (v : Word) (f : Flags) : Flags :=
  { f with
    done := f.done && !v.getLsbD 1
    err := f.err && !v.getLsbD 2
    ovr := f.ovr && !v.getLsbD 5 }

/-- An ignored write sets OVR (70_reset_and_hazards R162). -/
def Flags.overrun (f : Flags) : Flags := { f with ovr := true }

/-- The flags at issue: all of the last result's are cleared, OVR is not (43_control_ops R125). -/
def Flags.atIssue (f : Flags) : Flags :=
  { f with done := false, err := false, authOk := false, errCode := .none }

/-- The flags a commit writes: ERR says whether there is an error code (43_control_ops R129). DONE is set by the
completion step, OVR by no command. -/
def Flags.atCommit (code : ErrCode) (authOk : Bool) (f : Flags) : Flags :=
  { f with authOk := authOk, errCode := code, err := code != .none }

end Sys2Proof.Machine
end

