-- ==== Sys2Proof/Machine/Ops.lean ====
section
/-! DEFINITION. The named operations: byte strings, the byte windows, the message RAM, command issue, command completion
(the one operation by which an error is taken), and reset. -/

namespace Sys2Proof.Machine

/-- The outcome of a step of this machine. -/
abbrev Outcome := Host.Outcome State Fault Refusal

/-! ### Byte strings (00_scope R10, R11; 20_memory R56) -/

/-- Byte `k` of a bus word: bits `8k+7 : 8k` (20_memory R56). -/
def laneByte (v : Word) (k : Nat) : Byte := v.extractLsb' (8 * k) 8

/-- The low `n` bytes of a bus word, lowest address first (20_memory R56). -/
def toLanes (n : Nat) (v : Word) : Bytes := (List.range n).map (laneByte v)

/-- The bus word of a byte string, its first byte in bits 7:0 (20_memory R56). -/
def fromLanes : Bytes → Word
  | [] => 0
  | b :: bs => (fromLanes bs <<< 8) ||| b.setWidth 32

/-- `A xor B` of two strings of equal length (00_scope R10). -/
def xorBytes (a b : Bytes) : Bytes := List.zipWith (· ^^^ ·) a b

/-- `be64(v)`, most significant byte first (00_scope R11). -/
def be64 (v : Nat) : Bytes := (List.range 8).map fun k => BitVec.ofNat 8 (v >>> (8 * (7 - k)))

/-- The first `k` consecutive pieces of `n` bytes. -/
def chunks (n : Nat) : Nat → Bytes → List Bytes
  | 0, _ => []
  | k + 1, bs => bs.take n :: chunks n k (bs.drop n)

/-! ### Byte windows (10_state R38-R41) -/

/-- A window of `n` bytes that holds `bs` and then 0x00 bytes. -/
def windowOf (n : Nat) (bs : Bytes) : Vector Byte n :=
  ⟨((bs ++ zeros n).take n).toArray, by simp [zeros]⟩

/-- Stores a byte string into a window from index `i` on. -/
def storeWindow {n : Nat} (w : Vector Byte n) (i : Nat) : Bytes → Vector Byte n
  | [] => w
  | b :: bs => storeWindow (w.setIfInBounds i b) (i + 1) bs

/-- The `k` bytes of a window from index `i` on. -/
def loadWindow {n : Nat} (w : Vector Byte n) (i k : Nat) : Bytes := (w.toList.drop i).take k

/-! ### The message RAM (10_state R42) -/

/-- `RAM[a]`. -/
def Memory.read : Memory → Nat → Byte
  | [], _ => Memory.unlisted
  | (k, b) :: m, a => if k = a then b else Memory.read m a

/-- `RAM[a] <- v`, in the canonical form: storing what an unlisted offset reads as removes the entry. -/
def Memory.write : Memory → Nat → Byte → Memory
  | [], a, v => if v = Memory.unlisted then [] else [(a, v)]
  | (k, b) :: m, a, v =>
    if a < k then (if v = Memory.unlisted then (k, b) :: m else (a, v) :: (k, b) :: m)
    else if a = k then (if v = Memory.unlisted then m else (a, v) :: m)
    else (k, b) :: Memory.write m a v

/-- `RAM[o ..< o+n]` (00_scope R12). -/
def Memory.readBytes (m : Memory) (o n : Nat) : Bytes := (List.range n).map fun k => Memory.read m (o + k)

/-- `RAM[o + i] <- B[i]` for every i (43_control_ops R129). -/
def Memory.writeBytes (m : Memory) (o : Nat) : Bytes → Memory
  | [] => m
  | b :: bs => Memory.writeBytes (Memory.write m o b) (o + 1) bs

/-! ### Issue (43_control_ops R125) -/

/-- An accepted CMD write of word `w`: one atomic effect (43_control_ops R125). -/
def issue (w : Word) (s : State) : State :=
  { s with pending := w, seqState := .exec, flags := s.flags.atIssue, out := .zero }

/-! ### Completion (43_control_ops R126-R130) -/

/-- The Result record (43_control_ops R126). -/
structure Result where
  code : ErrCode
  /-- bytes for the RAM: offset and byte string -/
  ramWrite : Option (Nat × Bytes)
  outLen : BitVec 16
  tagOut : Vector Byte 32
  tagOutLen : BitVec 6
  authOk : Bool
  zeroRam : Bool
  deriving DecidableEq, Repr

/-- A raised error (00_scope R13), with whether the compare had already matched (43_control_ops R126). -/
structure Raised where
  code : ErrCode
  matched : Bool
  deriving DecidableEq, Repr

/-- The failure Result of a raised error (43_control_ops R126, R129): no RAM byte, no output, no tag. -/
def failureResult (e : Raised) : Result where
  code := e.code
  ramWrite := none
  outLen := 0
  tagOut := Vector.replicate 32 0
  tagOutLen := 0
  authOk := e.matched
  zeroRam := false

/-- What a completion commits: an Exec function's Result, or the failure Result of what it raised (43_control_ops R128). -/
def resultOf : Except Raised Result → Result
  | .ok r => r
  | .error e => failureResult e

/-- The RAM after a commit (43_control_ops R129). -/
def Result.ramAfter (r : Result) (m : Memory) : Memory :=
  match r.ramWrite with
  | none => if r.zeroRam then [] else m
  | some (o, bs) => Memory.writeBytes (if r.zeroRam then [] else m) o bs

/-- Commit (43_control_ops R129), of a success Result and of a failure Result alike. -/
def commit (r : Result) (s : State) : State :=
  { s with
    ram := r.ramAfter s.ram
    out := { outLen := r.outLen, tagOutLen := r.tagOutLen, tagOutw := r.tagOut }
    flags := s.flags.atCommit r.code r.authOk }

/-- Transient clearing (43_control_ops R130). The derived keys and the HMAC state are values, not state (10_state R44). -/
def clearTransient (s : State) : State := { s with win := .zero }

/-- The end of a completion step: SEQSTATE <- IDLE and DONE <- 1 (43_control_ops R128). -/
def finish (s : State) : State := { s with seqState := .idle, flags := { s.flags with done := true } }

/-- A completion step that commits `r` (43_control_ops R128). An error is taken by this operation and no other, on
`failureResult e` (60_exceptions R145): nothing is saved and control goes nowhere; the host acknowledges by a write of STATUS
or by the next issue (60_exceptions R146). -/
def complete (r : Result) (s : State) : State := finish (clearTransient (commit r s))

/-- NOP's completion step: no transient clearing (43_control_ops R130, R131). -/
def completeKeeping (r : Result) (s : State) : State := finish (commit r s)

/-- A completion with a raised error (60_exceptions R145). -/
def completeError (e : Raised) (s : State) : State := complete (failureResult e) s

/-! ### Reset (70_reset_and_hazards R156-R159) -/

/-- Every piece of block state at its 10_state R48 value, ENGRDY at the level of ENGINE_PRESENT. -/
def blockReset (s : State) : State :=
  { s with
    ops := .reset
    win := .zero
    out := .zero
    flags := .reset
    ram := []
    seqState := .init
    pending := 0
    engRdy := s.enginePresent }

/-- RESET is asserted: a command in flight is abandoned (70_reset_and_hazards R156, R160). -/
def assertReset (s : State) : State := { blockReset s with rst := true }

/-- RESET is released: ENGRDY samples ENGINE_PRESENT and INIT begins (70_reset_and_hazards R157). With RESET not
asserted there is nothing to release. -/
def releaseReset (s : State) : State := if s.rst then { blockReset s with rst := false } else s

/-- The end of INIT (70_reset_and_hazards R159): BUSY falls, and every RAM and window byte is 0x00. -/
def endInit (s : State) : State :=
  { s with
    seqState := .idle
    win := .zero
    ram := []
    out := { s.out with tagOutw := Vector.replicate 32 0 } }

end Sys2Proof.Machine
end

