-- ==== Sys2Proof/Machine/Operands.lean ====
section
/-! DEFINITION. Every operand form: the variant's parameters, the RAM regions and windows a command reads, and the checks
made before any is read (40_tag_protocol R86; 30_encoding R77, R78; 60_exceptions R138, R139). -/

namespace Sys2Proof.Machine

/-- The hash functions of the variants (00_scope R7). -/
inductive HashAlg where
  | sha256
  | sha384
  | sha512
  deriving DecidableEq, Repr

/-- A row of the variant parameter set (00_scope R7, 40_tag_protocol R86); lengths in bytes. -/
structure Par where
  hash : HashAlg
  dlen : Nat
  cekBytes : Nat
  halfBytes : Nat
  tlen : Nat
  blk : Nat
  deriving DecidableEq, Repr

/-- `par(VARIANT)` (40_tag_protocol R86); VARIANT 3 has no row. -/
def par (variant : BitVec 2) : Option Par :=
  match variant.toNat with
  | 0 => some { hash := .sha256, dlen := 32, cekBytes := 32, halfBytes := 16, tlen := 16, blk := 64 }
  | 1 => some { hash := .sha384, dlen := 48, cekBytes := 48, halfBytes := 24, tlen := 24, blk := 128 }
  | 2 => some { hash := .sha512, dlen := 64, cekBytes := 64, halfBytes := 32, tlen := 32, blk := 128 }
  | _ => none

/-- The CEK, `CEKW[0 ..< CEKLEN]` (10_state R38, 30_encoding R78). -/
def cekOf (s : State) : Bytes := s.win.cekw.toList.take s.ops.cekLen.toNat

/-- The IV, `IVW[0 ..< 16]` (10_state R39). -/
def ivOf (s : State) : Bytes := s.win.ivw.toList

/-- H, the encoded protected header (10_state R32). -/
def headerOf (s : State) : Bytes := Memory.readBytes s.ram s.ops.hdrOff.toNat s.ops.hdrLen.toNat

/-- A, the AAD: absent unless CTRL.AADP is 1, and then possibly empty (10_state R33). -/
def aadOf (s : State) : Option Bytes :=
  if s.ops.ctrl.aadp then some (Memory.readBytes s.ram s.ops.aadOff.toNat s.ops.aadLen.toNat) else none

/-- The command input: plaintext for ENC, ciphertext for DEC, TAG and VERIFY (10_state R34). -/
def inputOf (s : State) : Bytes := Memory.readBytes s.ram s.ops.inOff.toNat s.ops.inLen.toNat

/-- `InRam(off, len)`, computed without wrap (60_exceptions R139). -/
def inRam (off len : Nat) : Bool := decide (off + len ≤ Config.msgRamBytes)

/-- The crypto commands (00_scope, Glossary). -/
inductive CryptoOp where
  | enc
  | dec
  | tag
  | verify
  deriving DecidableEq, Repr

/-- The length of the output region that Precheck reserves: ENC's padded length, DEC's input length, none for the
commands that write no output (60_exceptions R138). -/
def outputBound (op : CryptoOp) (s : State) : Option Nat :=
  match op with
  | .enc => some (16 * (s.ops.inLen.toNat / 16 + 1))
  | .dec => some s.ops.inLen.toNat
  | .tag => none
  | .verify => none

/-- The range checks of Precheck (60_exceptions R138): HDR, AAD when AADP = 1, IN, and the output region. -/
def rangesOk (op : CryptoOp) (s : State) : Bool :=
  inRam s.ops.hdrOff.toNat s.ops.hdrLen.toNat
    && (!s.ops.ctrl.aadp || inRam s.ops.aadOff.toNat s.ops.aadLen.toNat)
    && inRam s.ops.inOff.toNat s.ops.inLen.toNat
    && (match outputBound op s with
        | none => true
        | some n => inRam s.ops.outOff.toNat n)

/-- `Precheck(op, S)`: the first check that fails raises its error; where all pass, the variant's parameters
(60_exceptions R138). It reads no data, key or tag byte. -/
def precheck (op : CryptoOp) (s : State) : Except ErrCode Par :=
  if !s.engRdy then .error .engineUnavailable
  else match par s.ops.ctrl.variant with
    | none => .error .illegalCfg
    | some p =>
      if s.ops.cekLen.toNat * 8 ≠ 8 * p.cekBytes then .error .invalidKeyLength
      else if rangesOk op s then .ok p
      else .error .rangeError

end Sys2Proof.Machine
end

