-- ==== Sys2Proof/Machine/Sha2.lean ====
section
/-! DEFINITION. SHA-256, SHA-384 and SHA-512, which the spec names and fixes by FIPS 180-4 (00_scope R6, 40_tag_protocol
R96). PRESUMED: the algorithms' text is FIPS 180-4's, not the spec's (notes/assumptions/5.md); they are tested against
the spec's known answers V-H1 to V-H3 and its tag vectors. -/

namespace Sys2Proof.Machine

/-- FIPS 180-4 section 4.2.2: the 64 round constants of SHA-256. -/
def sha256K : List (BitVec 32) :=
  [0x428a2f98, 0x71374491, 0xb5c0fbcf, 0xe9b5dba5, 0x3956c25b, 0x59f111f1, 0x923f82a4, 0xab1c5ed5] ++
  [0xd807aa98, 0x12835b01, 0x243185be, 0x550c7dc3, 0x72be5d74, 0x80deb1fe, 0x9bdc06a7, 0xc19bf174] ++
  [0xe49b69c1, 0xefbe4786, 0x0fc19dc6, 0x240ca1cc, 0x2de92c6f, 0x4a7484aa, 0x5cb0a9dc, 0x76f988da] ++
  [0x983e5152, 0xa831c66d, 0xb00327c8, 0xbf597fc7, 0xc6e00bf3, 0xd5a79147, 0x06ca6351, 0x14292967] ++
  [0x27b70a85, 0x2e1b2138, 0x4d2c6dfc, 0x53380d13, 0x650a7354, 0x766a0abb, 0x81c2c92e, 0x92722c85] ++
  [0xa2bfe8a1, 0xa81a664b, 0xc24b8b70, 0xc76c51a3, 0xd192e819, 0xd6990624, 0xf40e3585, 0x106aa070] ++
  [0x19a4c116, 0x1e376c08, 0x2748774c, 0x34b0bcb5, 0x391c0cb3, 0x4ed8aa4a, 0x5b9cca4f, 0x682e6ff3] ++
  [0x748f82ee, 0x78a5636f, 0x84c87814, 0x8cc70208, 0x90befffa, 0xa4506ceb, 0xbef9a3f7, 0xc67178f2]

/-- FIPS 180-4 section 4.2.3: the 80 round constants of SHA-384 and SHA-512. -/
def sha512K : List (BitVec 64) :=
  [0x428a2f98d728ae22, 0x7137449123ef65cd, 0xb5c0fbcfec4d3b2f, 0xe9b5dba58189dbbc] ++
  [0x3956c25bf348b538, 0x59f111f1b605d019, 0x923f82a4af194f9b, 0xab1c5ed5da6d8118] ++
  [0xd807aa98a3030242, 0x12835b0145706fbe, 0x243185be4ee4b28c, 0x550c7dc3d5ffb4e2] ++
  [0x72be5d74f27b896f, 0x80deb1fe3b1696b1, 0x9bdc06a725c71235, 0xc19bf174cf692694] ++
  [0xe49b69c19ef14ad2, 0xefbe4786384f25e3, 0x0fc19dc68b8cd5b5, 0x240ca1cc77ac9c65] ++
  [0x2de92c6f592b0275, 0x4a7484aa6ea6e483, 0x5cb0a9dcbd41fbd4, 0x76f988da831153b5] ++
  [0x983e5152ee66dfab, 0xa831c66d2db43210, 0xb00327c898fb213f, 0xbf597fc7beef0ee4] ++
  [0xc6e00bf33da88fc2, 0xd5a79147930aa725, 0x06ca6351e003826f, 0x142929670a0e6e70] ++
  [0x27b70a8546d22ffc, 0x2e1b21385c26c926, 0x4d2c6dfc5ac42aed, 0x53380d139d95b3df] ++
  [0x650a73548baf63de, 0x766a0abb3c77b2a8, 0x81c2c92e47edaee6, 0x92722c851482353b] ++
  [0xa2bfe8a14cf10364, 0xa81a664bbc423001, 0xc24b8b70d0f89791, 0xc76c51a30654be30] ++
  [0xd192e819d6ef5218, 0xd69906245565a910, 0xf40e35855771202a, 0x106aa07032bbd1b8] ++
  [0x19a4c116b8d2d0c8, 0x1e376c085141ab53, 0x2748774cdf8eeb99, 0x34b0bcb5e19b48a8] ++
  [0x391c0cb3c5c95a63, 0x4ed8aa4ae3418acb, 0x5b9cca4f7763e373, 0x682e6ff3d6b2b8a3] ++
  [0x748f82ee5defb2fc, 0x78a5636f43172f60, 0x84c87814a1f0ab72, 0x8cc702081a6439ec] ++
  [0x90befffa23631e28, 0xa4506cebde82bde9, 0xbef9a3f7b2c67915, 0xc67178f2e372532b] ++
  [0xca273eceea26619c, 0xd186b8c721c0c207, 0xeada7dd6cde0eb1e, 0xf57d4f7fee6ed178] ++
  [0x06f067aa72176fba, 0x0a637dc5a2c898a6, 0x113f9804bef90dae, 0x1b710b35131c471b] ++
  [0x28db77f523047d84, 0x32caab7b40c72493, 0x3c9ebe0a15c9bebc, 0x431d67c49c100d4c] ++
  [0x4cc5d4becb3e42b6, 0x597f299cfc657e2a, 0x5fcb6fab3ad6faec, 0x6c44198c4a475817]

/-- FIPS 180-4 section 5.3.3. -/
def sha256Init : List (BitVec 32) :=
  [0x6a09e667, 0xbb67ae85, 0x3c6ef372, 0xa54ff53a, 0x510e527f, 0x9b05688c, 0x1f83d9ab, 0x5be0cd19]

/-- FIPS 180-4 section 5.3.4. -/
def sha384Init : List (BitVec 64) :=
  [0xcbbb9d5dc1059ed8, 0x629a292a367cd507, 0x9159015a3070dd17, 0x152fecd8f70e5939] ++
  [0x67332667ffc00b31, 0x8eb44a8768581511, 0xdb0c2e0d64f98fa7, 0x47b5481dbefa4fa4]

/-- FIPS 180-4 section 5.3.5. -/
def sha512Init : List (BitVec 64) :=
  [0x6a09e667f3bcc908, 0xbb67ae8584caa73b, 0x3c6ef372fe94f82b, 0xa54ff53a5f1d36f1] ++
  [0x510e527fade682d1, 0x9b05688c2b3e6c1f, 0x1f83d9abfb41bd6b, 0x5be0cd19137e2179]

/-- What the two word sizes differ in: the rotations of the four sigma functions, the round constants and the bytes of
the length field. -/
structure ShaCfg (w : Nat) where
  bigA : Nat × Nat × Nat
  bigE : Nat × Nat × Nat
  small0 : Nat × Nat × Nat
  small1 : Nat × Nat × Nat
  k : List (BitVec w)
  lenBytes : Nat

/-- The working variables a to h. -/
structure ShaWork (w : Nat) where
  a : BitVec w
  b : BitVec w
  c : BitVec w
  d : BitVec w
  e : BitVec w
  f : BitVec w
  g : BitVec w
  h : BitVec w

/-- FIPS 180-4 section 4.1: a sigma function of three rotations. -/
def shaBigSigma (r : Nat × Nat × Nat) {w : Nat} (x : BitVec w) : BitVec w :=
  x.rotateRight r.1 ^^^ x.rotateRight r.2.1 ^^^ x.rotateRight r.2.2

/-- FIPS 180-4 section 4.1: a sigma function of two rotations and a shift. -/
def shaSmallSigma (r : Nat × Nat × Nat) {w : Nat} (x : BitVec w) : BitVec w :=
  x.rotateRight r.1 ^^^ x.rotateRight r.2.1 ^^^ (x >>> r.2.2)

/-- One round (FIPS 180-4 section 6.2.2 step 3); `kw` is the round constant and the schedule word. -/
def shaRound {w : Nat} (c : ShaCfg w) (s : ShaWork w) (kw : BitVec w × BitVec w) : ShaWork w :=
  let ch := (s.e &&& s.f) ^^^ (~~~s.e &&& s.g)
  let maj := (s.a &&& s.b) ^^^ (s.a &&& s.c) ^^^ (s.b &&& s.c)
  let t1 := s.h + shaBigSigma c.bigE s.e + ch + kw.1 + kw.2
  let t2 := shaBigSigma c.bigA s.a + maj
  { a := t1 + t2, b := s.a, c := s.b, d := s.c, e := s.d + t1, f := s.e, g := s.f, h := s.g }

/-- The message schedule, newest word first, made `n` words longer (FIPS 180-4 section 6.2.2 step 1). -/
def shaExtend {w : Nat} (c : ShaCfg w) : Nat → List (BitVec w) → List (BitVec w)
  | 0, ws => ws
  | n + 1, ws =>
    shaExtend c n
      ((shaSmallSigma c.small1 (ws.getD 1 0) + ws.getD 6 0 + shaSmallSigma c.small0 (ws.getD 14 0) + ws.getD 15 0) :: ws)

/-- A word from its bytes, most significant first. -/
def shaWordOf (w : Nat) (bs : Bytes) : BitVec w := bs.foldl (fun x b => (x <<< 8) ||| b.setWidth w) 0

/-- The bytes of a word, most significant first. -/
def shaBytesOf {w : Nat} (x : BitVec w) : Bytes :=
  (List.range (w / 8)).map fun i => (x >>> (8 * (w / 8 - 1 - i))).setWidth 8

/-- One block into the hash value (FIPS 180-4 section 6.2.2). -/
def shaCompress {w : Nat} (c : ShaCfg w) (hv : List (BitVec w)) (block : Bytes) : List (BitVec w) :=
  let first := ((chunks (w / 8) 16 block).map (shaWordOf w)).reverse
  let ws := (shaExtend c (c.k.length - 16) first).reverse
  let v := fun i => hv.getD i 0
  let r := (c.k.zip ws).foldl (shaRound c) ⟨v 0, v 1, v 2, v 3, v 4, v 5, v 6, v 7⟩
  [v 0 + r.a, v 1 + r.b, v 2 + r.c, v 3 + r.d, v 4 + r.e, v 5 + r.f, v 6 + r.g, v 7 + r.h]

/-- Padding to whole blocks of `blk` bytes (FIPS 180-4 section 5.1). -/
def shaPad (blk lenBytes : Nat) (m : Bytes) : Bytes :=
  m ++ [0x80] ++ zeros ((blk - (m.length + 1 + lenBytes) % blk) % blk)
    ++ shaBytesOf (BitVec.ofNat (8 * lenBytes) (8 * m.length))

/-- The hash value of a message, as bytes. -/
def shaHash {w : Nat} (c : ShaCfg w) (initial : List (BitVec w)) (m : Bytes) : Bytes :=
  let blk := 16 * (w / 8)
  let padded := shaPad blk c.lenBytes m
  ((chunks blk (padded.length / blk) padded).foldl (shaCompress c) initial).flatMap shaBytesOf

/-- FIPS 180-4 section 4.1.2. -/
def sha256Cfg : ShaCfg 32 where
  bigA := (2, 13, 22)
  bigE := (6, 11, 25)
  small0 := (7, 18, 3)
  small1 := (17, 19, 10)
  k := sha256K
  lenBytes := 8

/-- FIPS 180-4 section 4.1.3. -/
def sha512Cfg : ShaCfg 64 where
  bigA := (28, 34, 39)
  bigE := (14, 18, 41)
  small0 := (1, 8, 7)
  small1 := (19, 61, 6)
  k := sha512K
  lenBytes := 16

/-- SHA-256 (FIPS 180-4 section 6.2). -/
def sha256 (m : Bytes) : Bytes := shaHash sha256Cfg sha256Init m

/-- SHA-384 (FIPS 180-4 section 6.5): SHA-512 from another initial value, its first 48 bytes. -/
def sha384 (m : Bytes) : Bytes := (shaHash sha512Cfg sha384Init m).take 48

/-- SHA-512 (FIPS 180-4 section 6.4). -/
def sha512 (m : Bytes) : Bytes := shaHash sha512Cfg sha512Init m

end Sys2Proof.Machine
end

