-- ==== Sys2Proof/Machine/TagProtocol.lean ====
section
/-! DEFINITION. The micro-operations every crypto command uses (40_tag_protocol): key split, authenticated input, AL, HMAC,
tag, constant-time compare, engine port, and the reference engine. -/

namespace Sys2Proof.Machine

/-- KeySplit: (macKey, encKey), by byte-length bisection (40_tag_protocol R87). -/
def keySplit (cek : Bytes) : Bytes × Bytes := (cek.take (cek.length / 2), cek.drop (cek.length / 2))

/-- AuthInput: a present AAD, even an empty one, is preceded by "." (40_tag_protocol R89). -/
def authInput (h : Bytes) : Option Bytes → Bytes
  | none => h
  | some a => h ++ [0x2E] ++ a

/-- ALBytes (40_tag_protocol R90). -/
def alBytes (mode : AlMode) (h : Bytes) (a : Option Bytes) : Nat :=
  match mode with
  | .authInput => (authInput h a).length
  | .headerOnly => h.length

/-- AL: the big-endian 64-bit bit length (40_tag_protocol R91). -/
def alField (mode : AlMode) (h : Bytes) (a : Option Bytes) : Bytes := be64 (alBytes mode h a * 8 % 2 ^ 64)

/-- MacInput (40_tag_protocol R92). -/
def macInput (h : Bytes) (a : Option Bytes) (iv c : Bytes) (mode : AlMode) : Bytes :=
  authInput h a ++ iv ++ c ++ alField mode h a

/-- HASH_v (40_tag_protocol R96). -/
def hashOf : HashAlg → Bytes → Bytes
  | .sha256 => sha256
  | .sha384 => sha384
  | .sha512 => sha512

/-- HMAC_v, for a key no longer than the hash's block (40_tag_protocol R95). -/
def hmac (p : Par) (key m : Bytes) : Bytes :=
  let k0 := key ++ zeros (p.blk - key.length)
  let inner := hashOf p.hash (xorBytes k0 (List.replicate p.blk 0x36) ++ m)
  hashOf p.hash (xorBytes k0 (List.replicate p.blk 0x5C) ++ inner)

/-- ComputeTag: the HMAC under macKey, cut to half the digest (40_tag_protocol R93). -/
def computeTag (p : Par) (cek iv h : Bytes) (a : Option Bytes) (c : Bytes) (mode : AlMode) : Bytes :=
  (hmac p (keySplit cek).1 (macInput h a iv c mode)).take (p.dlen / 2)

/-- CTEQ: always 32 iterations over the recomputed tag `t` of `tlen` bytes and the supplied bytes `s` of declared length
`slen` (40_tag_protocol R97). -/
def ctEq (t : Bytes) (tlen : Nat) (s : Bytes) (slen : Nat) : Bool :=
  let e := t ++ zeros (32 - tlen)
  let start : Byte := if slen = tlen then 0 else 1
  let diff := (List.range 32).foldl
    (fun d i => d ||| ((s.getD i 0 ^^^ e.getD i 0) &&& (if i < tlen then 0xFF else 0x00))) start
  diff == 0

/-- The encrypt request and its classification (40_tag_protocol R100). -/
def engineEncrypt (eng : Engine) (encKey iv p : Bytes) : Except ErrCode Bytes :=
  match eng .enc encKey iv p with
  | .fail => .error .engineFailure
  | .ok out => if out.length ≠ 16 * (p.length / 16 + 1) then .error .engineFailure else .ok out

/-- The decrypt request and its classification (40_tag_protocol R101). -/
def engineDecrypt (eng : Engine) (encKey iv c : Bytes) : Except ErrCode Bytes :=
  match eng .dec encKey iv c with
  | .fail => .error .engineFailure
  | .ok out => if out.length > c.length then .error .engineFailure else .ok out

/-! ### The reference engine (40_tag_protocol R104-R107), one legal value of ENGINE (93 U5) -/

/-- AES_k and AESinv_k as parameters: key, block to block (40_tag_protocol R104, 93 U9). -/
structure BlockCipher where
  enc : Bytes → Bytes → Bytes
  dec : Bytes → Bytes → Bytes

/-- For each key of 16, 24 or 32 bytes, `enc` is a permutation of the 16-byte blocks and `dec` its inverse
(40_tag_protocol R104). -/
structure BlockCipher.Valid (b : BlockCipher) : Prop where
  enc_length : ∀ k x, k.length ∈ [16, 24, 32] → x.length = 16 → (b.enc k x).length = 16
  dec_length : ∀ k x, k.length ∈ [16, 24, 32] → x.length = 16 → (b.dec k x).length = 16
  dec_enc : ∀ k x, k.length ∈ [16, 24, 32] → x.length = 16 → b.dec k (b.enc k x) = x
  enc_dec : ∀ k x, k.length ∈ [16, 24, 32] → x.length = 16 → b.enc k (b.dec k x) = x

/-- PKCS#7 padding to 16 bytes (40_tag_protocol R105). -/
def pkcsPad (p : Bytes) : Bytes :=
  p ++ List.replicate (16 - p.length % 16) (BitVec.ofNat 8 (16 - p.length % 16))

/-- PKCS#7 unpadding (40_tag_protocol R105). -/
def pkcsUnpad (x : Bytes) : EngineReply :=
  if x.length = 0 ∨ x.length % 16 ≠ 0 then .fail
  else
    let p := (x.getLastD 0).toNat
    if p < 1 ∨ p > 16 then .fail
    else if x.drop (x.length - p) ≠ List.replicate p (BitVec.ofNat 8 p) then .fail
    else .ok (x.take (x.length - p))

/-- CBC encryption of a list of blocks, `prev` being the block before the first (40_tag_protocol R106). -/
def cbcEncrypt (b : BlockCipher) (k : Bytes) : Bytes → List Bytes → Bytes
  | _, [] => []
  | prev, x :: xs => b.enc k (xorBytes x prev) ++ cbcEncrypt b k (b.enc k (xorBytes x prev)) xs

/-- CBC decryption of a list of blocks (40_tag_protocol R107). -/
def cbcDecrypt (b : BlockCipher) (k : Bytes) : Bytes → List Bytes → Bytes
  | _, [] => []
  | prev, c :: cs => xorBytes (b.dec k c) prev ++ cbcDecrypt b k c cs

/-- RefEnc (40_tag_protocol R106). -/
def refEnc (b : BlockCipher) (k iv p : Bytes) : EngineReply :=
  .ok (cbcEncrypt b k iv (chunks 16 ((pkcsPad p).length / 16) (pkcsPad p)))

/-- RefDec (40_tag_protocol R107). -/
def refDec (b : BlockCipher) (k iv c : Bytes) : EngineReply :=
  if c.length = 0 ∨ c.length % 16 ≠ 0 then .fail
  else pkcsUnpad (cbcDecrypt b k iv (chunks 16 (c.length / 16) c))

/-- The reference engine over a block cipher (40_tag_protocol R107). -/
def refEngine (b : BlockCipher) : Engine
  | .enc, k, iv, d => refEnc b k iv d
  | .dec, k, iv, d => refDec b k iv d

end Sys2Proof.Machine
end

