-- ==== Sys2Proof/Machine/ContentOps.lean ====
section
/-! DEFINITION. ENC and DEC (41_content_ops), over any engine; the hardware's is the OPEN function Config.engine. -/

namespace Sys2Proof.Machine

/-- ExecENC (41_content_ops R108): every input is read from `s`, the state at completion, before any output is written
(R110). -/
def encResult (eng : Engine) (s : State) : Except Raised Result :=
  match precheck .enc s with
  | .error e => .error { code := e, matched := false }
  | .ok p =>
    match engineEncrypt eng (keySplit (cekOf s)).2 (ivOf s) (inputOf s) with
    | .error e => .error { code := e, matched := false }
    | .ok c => .ok {
        code := .none
        ramWrite := some (s.ops.outOff.toNat, c)
        outLen := BitVec.ofNat 16 c.length
        tagOut := windowOf 32 (computeTag p (cekOf s) (ivOf s) (headerOf s) (aadOf s) c s.ops.ctrl.alMode)
        tagOutLen := BitVec.ofNat 6 p.tlen
        authOk := false
        zeroRam := false }

/-- ExecDEC (41_content_ops R112): the tag is checked first, and no engine call is made on a mismatch (R113). -/
def decResult (eng : Engine) (s : State) : Except Raised Result :=
  match precheck .dec s with
  | .error e => .error { code := e, matched := false }
  | .ok p =>
    let e := computeTag p (cekOf s) (ivOf s) (headerOf s) (aadOf s) (inputOf s) s.ops.ctrl.alMode
    if ctEq e p.tlen s.win.tagInw.toList s.ops.tagInLen.toNat then
      match engineDecrypt eng (keySplit (cekOf s)).2 (ivOf s) (inputOf s) with
      | .error e => .error { code := e, matched := true }
      | .ok pt => .ok {
          code := .none
          ramWrite := some (s.ops.outOff.toNat, pt)
          outLen := BitVec.ofNat 16 pt.length
          tagOut := Vector.replicate 32 0
          tagOutLen := 0
          authOk := true
          zeroRam := false }
    else .error { code := .authFail, matched := false }

/-- ENC's completion step with the engine `eng`. -/
def execEncWith (eng : Engine) (s : State) : Outcome := .next (complete (resultOf (encResult eng s)) s)

/-- DEC's completion step with the engine `eng`. -/
def execDecWith (eng : Engine) (s : State) : Outcome := .next (complete (resultOf (decResult eng s)) s)

/-- ENC (41_content_ops R108). -/
def execEnc (s : State) : Outcome := execEncWith Config.engine s

/-- DEC (41_content_ops R112). -/
def execDec (s : State) : Outcome := execDecWith Config.engine s

end Sys2Proof.Machine
end

