-- ==== Sys2Proof/Machine/ControlOps.lean ====
section
/-! DEFINITION. NOP, ZEROIZE and the reserved and illegal words (43_control_ops R131-R133). -/

namespace Sys2Proof.Machine

/-- A successful Result with no output (43_control_ops R131, R132). -/
def emptyResult (zeroRam : Bool) : Result where
  code := .none
  ramWrite := none
  outLen := 0
  tagOut := Vector.replicate 32 0
  tagOutLen := 0
  authOk := false
  zeroRam := zeroRam

/-- NOP: completes at once and clears no window (43_control_ops R131). -/
def execNop (s : State) : Outcome := .next (completeKeeping (emptyResult false) s)

/-- ZEROIZE: clears the RAM and the windows (43_control_ops R132). -/
def execZeroize (s : State) : Outcome := .next (complete (emptyResult true) s)

/-- ExecILLEGAL: `raise ILLEGAL_CMD` (43_control_ops R133); it reads no operand. -/
def illegalCommand (s : State) : Outcome := .next (completeError { code := .illegalCmd, matched := false } s)

/-- OPCODE 0x6 or 0x7 (43_control_ops R133). -/
def execReserved67 (_low : BitVec 1) (s : State) : Outcome := illegalCommand s

/-- OPCODE 0x8 to 0xF (43_control_ops R133). -/
def execReserved8F (_low : BitVec 3) (s : State) : Outcome := illegalCommand s

/-- CMD[31:4] not zero (43_control_ops R133). -/
def execIllegalUpper (_upper : BitVec 28) (_opcode : BitVec 4) (s : State) : Outcome := illegalCommand s

end Sys2Proof.Machine
end

