-- ==== Sys2Proof/Machine/TagOps.lean ====
section
/-! DEFINITION. TAG and VERIFY (42_tag_ops). Neither calls the engine (40_tag_protocol R102). -/

namespace Sys2Proof.Machine

/-- ExecTAG (42_tag_ops R117). -/
def tagResult (s : State) : Except Raised Result :=
  match precheck .tag s with
  | .error e => .error { code := e, matched := false }
  | .ok p => .ok {
      code := .none
      ramWrite := none
      outLen := 0
      tagOut := windowOf 32 (computeTag p (cekOf s) (ivOf s) (headerOf s) (aadOf s) (inputOf s) s.ops.ctrl.alMode)
      tagOutLen := BitVec.ofNat 6 p.tlen
      authOk := false
      zeroRam := false }

/-- ExecVERIFY (42_tag_ops R120): the recomputed tag is written nowhere (R121). -/
def verifyResult (s : State) : Except Raised Result :=
  match precheck .verify s with
  | .error e => .error { code := e, matched := false }
  | .ok p =>
    let e := computeTag p (cekOf s) (ivOf s) (headerOf s) (aadOf s) (inputOf s) s.ops.ctrl.alMode
    if ctEq e p.tlen s.win.tagInw.toList s.ops.tagInLen.toNat then .ok {
      code := .none
      ramWrite := none
      outLen := 0
      tagOut := Vector.replicate 32 0
      tagOutLen := 0
      authOk := true
      zeroRam := false }
    else .error { code := .authFail, matched := false }

/-- TAG (42_tag_ops R117). -/
def execTag (s : State) : Outcome := .next (complete (resultOf (tagResult s)) s)

/-- VERIFY (42_tag_ops R120). -/
def execVerify (s : State) : Outcome := .next (complete (resultOf (verifyResult s)) s)

end Sys2Proof.Machine
end

