-- ==== Sys2Proof/Machine/Dispatch.lean ====
section
/-! DEFINITION. Dispatch of the decoded command to its completion step (43_control_ops R127). -/

namespace Sys2Proof.Machine

/-- One completion step (43_control_ops R127, R128). -/
def exec (i : Instr) (s : State) : Host.Outcome State Fault Refusal :=
  match i with
  | .nop => Sys2Proof.Machine.execNop s
  | .enc => Sys2Proof.Machine.execEnc s
  | .dec => Sys2Proof.Machine.execDec s
  | .tag => Sys2Proof.Machine.execTag s
  | .verify => Sys2Proof.Machine.execVerify s
  | .zeroize => Sys2Proof.Machine.execZeroize s
  | .reserved67 low => Sys2Proof.Machine.execReserved67 low s
  | .reserved8F low => Sys2Proof.Machine.execReserved8F low s
  | .illegalUpper upper opcode => Sys2Proof.Machine.execIllegalUpper upper opcode s

end Sys2Proof.Machine
end

