-- ==== Sys2Proof/WellFormed.lean ====
section
/-! DEFINITION. Well-formed syntax: which terms stand for words the encoding has and for lines the notation allows. -/

namespace Sys2Proof

/-- An ILLEGAL_UPPER word has some bit of 31:4 set (30_encoding R76); with none set it is another row's word. -/
def Instr.wf : Instr → Bool
  | .nop => true
  | .enc => true
  | .dec => true
  | .tag => true
  | .verify => true
  | .zeroize => true
  | .reserved67 _ => true
  | .reserved8F _ => true
  | .illegalUpper upper _ => upper != 0

/-- The mnemonics `issue` and `run` take: those of 30_encoding R74 (its row 'reserved' is no mnemonic of a command). -/
def Instr.isMnemonic : Instr → Bool
  | .nop => true
  | .enc => true
  | .dec => true
  | .tag => true
  | .verify => true
  | .zeroize => true
  | .reserved67 _ => false
  | .reserved8F _ => false
  | .illegalUpper _ _ => false

/-- A host instruction names an offset the block answers: of its window or its end (30_encoding R79, 20_memory R50,
notes/assumptions/7.md). -/
def HostInstr.wf : HostInstr → Bool
  | .wr _ off _ => decide (off ≤ Config.windowBytes)
  | .rd _ off _ => decide (off ≤ Config.windowBytes)
  | .poll => true
  | .startBytes _ => true
  | .rdAppend _ off _ => decide (off ≤ Config.windowBytes)

/-- A line of the notation: offsets the block answers, a value of its access's width (20_memory R53: 'an n-byte value'),
a mnemonic of R74, and word-aligned byte strings inside the window (30_encoding R83, R84). -/
def Line.wf : Line → Bool
  | .wr32 off _ => decide (off ≤ Config.windowBytes)
  | .wr16 off v => decide (off ≤ Config.windowBytes) && decide (v.toNat < 65536)
  | .wr8 off v => decide (off ≤ Config.windowBytes) && decide (v.toNat < 256)
  | .rd32 off _ => decide (off ≤ Config.windowBytes)
  | .rd16 off _ => decide (off ≤ Config.windowBytes)
  | .rd8 off _ => decide (off ≤ Config.windowBytes)
  | .poll => true
  | .issue op => op.isMnemonic
  | .issueWord _ => true
  | .run op => op.isMnemonic
  | .runWord _ => true
  | .wrbytes off bs => decide (off % 4 = 0) && decide (off + bs.length ≤ Config.windowBytes)
  | .rdbytes off n _ => decide (off % 4 = 0) && decide (off + n ≤ Config.windowBytes)
  | .expect _ _ => true
  | .cfg _ _ _ _ => true

end Sys2Proof
end

