-- ==== Sys2Proof/Decode.lean ====
section
/-! DEFINITION. The decoder and the encoder of the command word (30_encoding R73-R76). -/

namespace Sys2Proof

/-- OPCODE, bits 3:0 of the command word (30_encoding R73). -/
def opcodeField (w : Word) : BitVec 4 := w.extractLsb' 0 4

/-- MBZ, bits 31:4 of the command word (30_encoding R73). -/
def mbzField (w : Word) : BitVec 28 := w.extractLsb' 4 28

/-- `decode` of 30_encoding R75: total on every 32-bit word; no word is refused (R76). -/
def decode (w : Word) : Instr :=
  if mbzField w ≠ 0 then .illegalUpper (mbzField w) (opcodeField w)
  else match (opcodeField w).toNat with
    | 0 => .nop
    | 1 => .enc
    | 2 => .dec
    | 3 => .tag
    | 4 => .verify
    | 5 => .zeroize
    | 6 => .reserved67 0
    | 7 => .reserved67 1
    | _ => .reserved8F (w.extractLsb' 0 3)

/-- The word of an instruction, from the same table (30_encoding R73, R74). -/
def encode : Instr → Word
  | .nop => 0x00000000
  | .enc => 0x00000001
  | .dec => 0x00000002
  | .tag => 0x00000003
  | .verify => 0x00000004
  | .zeroize => 0x00000005
  | .reserved67 low => 3#31 ++ low
  | .reserved8F low => 1#29 ++ low
  | .illegalUpper upper opcode => upper ++ opcode

/-- Why a byte string holds no command. -/
inductive DecodeRefusal where
  /-- fewer than the four bytes of the one command length (30_encoding R73) -/
  | truncated
  deriving DecidableEq, Repr

/-- A word from its four bytes, the lowest address in bits 7:0 (20_memory R56). -/
def wordOfLanes (b0 b1 b2 b3 : Byte) : Word := b3 ++ b2 ++ b1 ++ b0

/-- The first command of a byte string, with the rest of it: total, and refusing by name. A command is always 32 bits
(30_encoding R73). -/
def decodeBytes : Bytes → Except DecodeRefusal (Instr × Bytes)
  | b0 :: b1 :: b2 :: b3 :: rest => .ok (decode (wordOfLanes b0 b1 b2 b3), rest)
  | _ => .error .truncated

/-- The bytes of a command word as the bus carries them, lowest address first (20_memory R56). -/
def commandBytes (w : Word) : Bytes :=
  [w.extractLsb' 0 8, w.extractLsb' 8 8, w.extractLsb' 16 8, w.extractLsb' 24 8]

/-- The word whose low `nbits` bits are those of `w`, and whose other bits are zero. -/
def tableWord (nbits w : Nat) : Word := BitVec.ofNat 32 (w % 2 ^ nbits)

/-- The instruction the decoder reads from the bits `w` numbered as spec/opcode_table.json numbers them. -/
def decodeTableWord (nbits w : Nat) : Option Instr :=
  match decodeBytes (commandBytes (tableWord nbits w)) with
  | .ok (i, _) => some i
  | .error _ => none

end Sys2Proof
end

