-- ==== Sys2Proof/Machine/Bus.lean ====
section
/-! DEFINITION. The bus window: the register map, which accesses are legal, and what a legal access does
(10_state R18-R37, 20_memory R49-R62, 70_reset_and_hazards R162, R163). -/

namespace Sys2Proof.Machine

/-- The registers, in the order of the register map (10_state R18). -/
inductive Reg where
  | id
  | version
  | ctrl
  | cekSize
  | keySize
  | ivSize
  | hashAlg
  | tagSize
  | cmd
  | status
  | cekLen
  | tagInLen
  | hdrOff
  | hdrLen
  | aadOff
  | aadLen
  | inOff
  | inLen
  | outOff
  | outLen
  | tagOutLen
  deriving DecidableEq, Repr

/-- Where an offset lies, and the index inside a window or the RAM (10_state R18). -/
inductive Region where
  | reg (r : Reg)
  | cekw (i : Nat)
  | ivw (i : Nat)
  | tagInw (i : Nat)
  | tagOutw (i : Nat)
  | ram (i : Nat)
  | unmapped
  deriving DecidableEq, Repr

/-- The register at an offset of the register map (10_state R18). -/
def regAt (off : Nat) : Option Reg :=
  match off with
  | 0x000 => some .id
  | 0x004 => some .version
  | 0x008 => some .ctrl
  | 0x00C => some .cekSize
  | 0x010 => some .keySize
  | 0x014 => some .ivSize
  | 0x018 => some .hashAlg
  | 0x01C => some .tagSize
  | 0x020 => some .cmd
  | 0x024 => some .status
  | 0x028 => some .cekLen
  | 0x02C => some .tagInLen
  | 0x030 => some .hdrOff
  | 0x034 => some .hdrLen
  | 0x038 => some .aadOff
  | 0x03C => some .aadLen
  | 0x040 => some .inOff
  | 0x044 => some .inLen
  | 0x048 => some .outOff
  | 0x04C => some .outLen
  | 0x050 => some .tagOutLen
  | _ => none

/-- The byte windows and the RAM of the register map: first offset, length, and the region of an index
(10_state R18, R38-R42; 20_memory R51). -/
def windowMap : List (Nat × Nat × (Nat → Region)) :=
  [(0x100, 64, .cekw), (0x140, 16, .ivw), (0x180, 32, .tagInw), (0x1C0, 32, .tagOutw),
    (0x1000, Config.msgRamBytes, .ram)]

/-- The region of an index in the first window of a map that holds the offset. -/
def windowAt (off : Nat) : List (Nat × Nat × (Nat → Region)) → Region
  | [] => .unmapped
  | (base, size, region) :: rest =>
    if base ≤ off ∧ off < base + size then region (off - base) else windowAt off rest

/-- The region of an offset (10_state R18, 20_memory R59). Inside a register it is the register's word. -/
def regionAt (off : Nat) : Region :=
  match regAt (off / 4 * 4) with
  | some r => .reg r
  | none => windowAt off windowMap

/-- The widths a region accepts (20_memory R57); an unmapped one accepts none (R59). -/
def widthOk (n : Nat) : Region → Bool
  | .reg _ => n == 4
  | .cekw _ => n == 1 || n == 2 || n == 4
  | .ivw _ => n == 1 || n == 2 || n == 4
  | .tagInw _ => n == 1 || n == 2 || n == 4
  | .tagOutw _ => n == 1 || n == 2 || n == 4
  | .ram _ => n == 1 || n == 2 || n == 4
  | .unmapped => false

/-- A legal access of `n` bytes: accepted width, natural alignment, mapped offset (20_memory R54). -/
def legalAccess (off n : Nat) : Bool := widthOk n (regionAt off) && off % n == 0

/-! ### Registers -/

/-- CTRL as a word (10_state R22). -/
def Ctrl.toWord (c : Ctrl) : Word :=
  0#15 ++ BitVec.ofBool c.ie ++ 0#7 ++ BitVec.ofBool c.aadp ++ 0#3
    ++ BitVec.ofBool (c.alMode == .headerOnly) ++ 0#2 ++ c.variant

/-- What a write of CTRL stores: bits 1:0, 4, 8 and 16 (10_state R22, 20_memory R55). -/
def Ctrl.ofWord (v : Word) : Ctrl where
  variant := v.extractLsb' 0 2
  alMode := if v.getLsbD 4 then .headerOnly else .authInput
  aadp := v.getLsbD 8
  ie := v.getLsbD 16

/-- `cekSize()` in bits, 0 for VARIANT 3 (10_state R23). -/
def cekSizeBits (variant : BitVec 2) : Nat :=
  match par variant with
  | some p => 8 * p.cekBytes
  | none => 0

/-- The hashAlgorithm identifier, 3 (none) for VARIANT 3 (10_state R26). -/
def hashId (variant : BitVec 2) : Nat :=
  match par variant with
  | some p => (match p.hash with
    | .sha256 => 0
    | .sha384 => 1
    | .sha512 => 2)
  | none => 3

/-- The tag length in bytes, 0 for VARIANT 3 (10_state R27). -/
def tagSizeBytes (variant : BitVec 2) : Nat :=
  match par variant with
  | some p => p.tlen
  | none => 0

/-- What a legal read of a register returns (10_state R20-R37, 20_memory R55). -/
def readReg (r : Reg) (s : State) : Word :=
  match r with
  | .id => 0x4A4F5345
  | .version => 0x00000001
  | .ctrl => s.ops.ctrl.toWord
  | .cekSize => BitVec.ofNat 32 (cekSizeBits s.ops.ctrl.variant)
  | .keySize => BitVec.ofNat 32 (cekSizeBits s.ops.ctrl.variant)
  | .ivSize => 128
  | .hashAlg => BitVec.ofNat 32 (hashId s.ops.ctrl.variant)
  | .tagSize => BitVec.ofNat 32 (tagSizeBytes s.ops.ctrl.variant)
  | .cmd => 0
  | .status => statusWord s
  | .cekLen => s.ops.cekLen.setWidth 32
  | .tagInLen => s.ops.tagInLen.setWidth 32
  | .hdrOff => s.ops.hdrOff.setWidth 32
  | .hdrLen => s.ops.hdrLen.setWidth 32
  | .aadOff => s.ops.aadOff.setWidth 32
  | .aadLen => s.ops.aadLen.setWidth 32
  | .inOff => s.ops.inOff.setWidth 32
  | .inLen => s.ops.inLen.setWidth 32
  | .outOff => s.ops.outOff.setWidth 32
  | .outLen => s.out.outLen.setWidth 32
  | .tagOutLen => s.out.tagOutLen.setWidth 32

/-- A W1C write of STATUS (10_state R29). -/
def writeStatus (v : Word) (s : State) : State := { s with flags := s.flags.w1c v }

/-- What a legal write of a register does while the block is not busy (20_memory R55); a write of a read-only register
does nothing (R60). -/
def writeReg (r : Reg) (v : Word) (s : State) : State :=
  match r with
  | .id => s
  | .version => s
  | .ctrl => { s with ops := { s.ops with ctrl := .ofWord v } }
  | .cekSize => s
  | .keySize => s
  | .ivSize => s
  | .hashAlg => s
  | .tagSize => s
  | .cmd => issue v s
  | .status => writeStatus v s
  | .cekLen => { s with ops := { s.ops with cekLen := v.setWidth 7 } }
  | .tagInLen => { s with ops := { s.ops with tagInLen := v.setWidth 6 } }
  | .hdrOff => { s with ops := { s.ops with hdrOff := v.setWidth 16 } }
  | .hdrLen => { s with ops := { s.ops with hdrLen := v.setWidth 16 } }
  | .aadOff => { s with ops := { s.ops with aadOff := v.setWidth 16 } }
  | .aadLen => { s with ops := { s.ops with aadLen := v.setWidth 16 } }
  | .inOff => { s with ops := { s.ops with inOff := v.setWidth 16 } }
  | .inLen => { s with ops := { s.ops with inLen := v.setWidth 16 } }
  | .outOff => { s with ops := { s.ops with outOff := v.setWidth 16 } }
  | .outLen => s
  | .tagOutLen => s

/-! ### Accesses -/

/-- The answer to an access. A bus error carries no state: it changes none (20_memory R53). -/
inductive Reply (α : Type) where
  | ok (a : α)
  | busError
  /-- HAUTH does not decode the address (20_memory R50) -/
  | notDecoded
  deriving DecidableEq, Repr

/-- The next `n` fresh bytes of busy RAM reads (70_reset_and_hazards R163). -/
def drawBytes (n : Nat) (s : State) : Bytes := (List.range n).map fun k => Config.freeByte (s.draws + k)

/-- What a legal read of `n` bytes returns, and the state after it, which differs in the draw counter at most
(20_memory R55, R61). -/
def readRegion (r : Region) (n : Nat) (s : State) : Word × State :=
  match r with
  | .reg q => (readReg q s, s)
  | .cekw _ => (0, s)
  | .ivw i => (fromLanes (loadWindow s.win.ivw i n), s)
  | .tagInw i => (fromLanes (loadWindow s.win.tagInw i n), s)
  | .tagOutw i => (fromLanes (loadWindow s.out.tagOutw i n), s)
  | .ram i =>
    if s.busy then (fromLanes (drawBytes n s), { s with draws := s.draws + n })
    else (fromLanes (Memory.readBytes s.ram i n), s)
  | .unmapped => (0, s)

/-- What a legal write of the low `n` bytes of `v` does while the block is not busy (20_memory R55). -/
def writeRegion (r : Region) (n : Nat) (v : Word) (s : State) : State :=
  match r with
  | .reg q => writeReg q v s
  | .cekw i => { s with win := { s.win with cekw := storeWindow s.win.cekw i (toLanes n v) } }
  | .ivw i => { s with win := { s.win with ivw := storeWindow s.win.ivw i (toLanes n v) } }
  | .tagInw i => { s with win := { s.win with tagInw := storeWindow s.win.tagInw i (toLanes n v) } }
  | .tagOutw _ => s
  | .ram i => { s with ram := Memory.writeBytes s.ram i (toLanes n v) }
  | .unmapped => s

/-- A write ignored because the block is busy (70_reset_and_hazards R162). -/
def ignoreWrite (s : State) : State := { s with flags := s.flags.overrun }

/-- HAUTH answers an access at this offset: it is in the window (20_memory R50), or it is the window's end, which vector
V-B9 answers with a bus error (notes/assumptions/7.md). -/
def decoded (off : Nat) : Bool := decide (off ≤ Config.windowBytes)

/-- A read of `n` bytes at window offset `off` (20_memory R50, R53-R59). -/
def busRead (off n : Nat) (s : State) : Reply (Word × State) :=
  if !decoded off then .notDecoded
  else if legalAccess off n then .ok (readRegion (regionAt off) n s)
  else .busError

/-- A write of the low `n` bytes of `v` at window offset `off` (20_memory R50, R53-R60). Only a STATUS write is accepted
while busy (70_reset_and_hazards R162). -/
def busWrite (off n : Nat) (v : Word) (s : State) : Reply State :=
  if !decoded off then .notDecoded
  else if legalAccess off n then
    if regionAt off = .reg .status then .ok (writeStatus v s)
    else if s.busy then .ok (ignoreWrite s)
    else .ok (writeRegion (regionAt off) n v s)
  else .busError

/-- `MemRead(addr, n)` (20_memory R53): the offset is `addr - BLOCK_BASE`, and below BLOCK_BASE nothing is decoded (R50). -/
def memRead (addr n : Nat) (s : State) : Reply (Word × State) :=
  if addr < Config.blockBase then .notDecoded else busRead (addr - Config.blockBase) n s

/-- `MemWrite(addr, n, v)` (20_memory R53), with the offset of R50. -/
def memWrite (addr n : Nat) (v : Word) (s : State) : Reply State :=
  if addr < Config.blockBase then .notDecoded else busWrite (addr - Config.blockBase) n v s

end Sys2Proof.Machine
end

