-- ==== Sys2Proof/Machine/HostProgram.lean ====
section
/-! DEFINITION. Host programs: what a line expands to, and what a master's turn does (30_encoding R79-R85). -/

namespace Sys2Proof.Machine

/-- The number of bytes of an access width. -/
def widthBytes : Width → Nat
  | .w8 => 1
  | .w16 => 2
  | .w32 => 4

/-- `wrbytes`: whole words in little-endian lane order, then the remaining bytes one at a time (30_encoding R83). -/
def wrbytesInstrs (off : Nat) : Bytes → List HostInstr
  | b0 :: b1 :: b2 :: b3 :: rest => .wr .w32 off (wordOfLanes b0 b1 b2 b3) :: wrbytesInstrs (off + 4) rest
  | b :: rest => .wr .w8 off (b.setWidth 32) :: wrbytesInstrs (off + 1) rest
  | [] => []

/-- `rdbytes`: whole words, then the remaining bytes one at a time (30_encoding R84). -/
def rdbytesInstrs (off n : Nat) (name : VarName) : List HostInstr :=
  .startBytes name
    :: ((List.range (n / 4)).map fun k => HostInstr.rdAppend .w32 (off + 4 * k) name)
    ++ ((List.range (n % 4)).map fun j => HostInstr.rdAppend .w8 (off + 4 * (n / 4) + j) name)

/-- The word `cfg` writes to CTRL: a + 16b + 256c + 65536d (30_encoding R85). -/
def cfgWord (variant : BitVec 2) (alMode aadp ie : Bool) : Word :=
  BitVec.ofNat 32 (variant.toNat + 16 * alMode.toNat + 256 * aadp.toNat + 65536 * ie.toNat)

/-- The host instructions a line expands to (30_encoding R79-R85); `expect` is an assertion, not an access. -/
def expandLine : Line → List HostInstr
  | .wr32 off v => [.wr .w32 off v]
  | .wr16 off v => [.wr .w16 off v]
  | .wr8 off v => [.wr .w8 off v]
  | .rd32 off name => [.rd .w32 off name]
  | .rd16 off name => [.rd .w16 off name]
  | .rd8 off name => [.rd .w8 off name]
  | .poll => [.poll]
  | .issue op => [.wr .w32 0x020 (encode op)]
  | .issueWord w => [.wr .w32 0x020 w]
  | .run op => [.wr .w32 0x020 (encode op), .poll]
  | .runWord w => [.wr .w32 0x020 w, .poll]
  | .wrbytes off bs => wrbytesInstrs off bs
  | .rdbytes off n name => rdbytesInstrs off n name
  | .expect _ _ => []
  | .cfg variant alMode aadp ie => [.wr .w32 0x008 (cfgWord variant alMode aadp ie)]

/-- A program's host instructions, each with the number of its line; the first line has number `n`. -/
def numberLines : Nat → List Line → List (Nat × HostInstr)
  | _, [] => []
  | n, l :: ls => (expandLine l).map (fun hi => (n, hi)) ++ numberLines (n + 1) ls

/-- A master about to run a program whose first line has number `n`. -/
def loadProgram (n : Nat) (lines : List Line) : Master where
  prog := numberLines n lines
  vars := []
  stopped := none

/-- A host-side variable's value. -/
def getVar (name : VarName) : List (VarName × HostVal) → Option HostVal
  | [] => none
  | (k, v) :: vars => if k = name then some v else getVar name vars

/-- A host-side variable takes a value. -/
def setVar (name : VarName) (v : HostVal) : List (VarName × HostVal) → List (VarName × HostVal)
  | [] => [(name, v)]
  | (k, x) :: vars => if k = name then (k, v) :: vars else (k, x) :: setVar name v vars

/-- The byte string a variable holds, empty where it holds none. -/
def varBytes (name : VarName) (vars : List (VarName × HostVal)) : Bytes :=
  match getVar name vars with
  | some (.bytes bs) => bs
  | some (.num _) => []
  | none => []

/-- A program's `expect` lines hold of the end values of its variables (30_encoding R85). -/
def expectationsMet (lines : List Line) (vars : List (VarName × HostVal)) : Bool :=
  lines.all fun l => match l with
    | .expect name v => getVar name vars == some v
    | _ => true

/-- A host instruction that makes a bus access. -/
def makesAccess : HostInstr → Bool
  | .wr _ _ _ => true
  | .rd _ _ _ => true
  | .poll => true
  | .startBytes _ => false
  | .rdAppend _ _ _ => true

/-- The master goes on with `rest` and variables `vars`. -/
def Master.advance (m : Master) (rest : List (Nat × HostInstr)) (vars : List (VarName × HostVal)) : Master :=
  { m with prog := rest, vars := vars }

/-- A bus error stops the program with outcome `buserror(line)` (30_encoding R79). -/
def Master.stopAt (m : Master) (line : Nat) : Master := { m with stopped := some line }

/-- A master has an instruction to run. -/
def Master.runnable (m : Master) : Bool := m.stopped.isNone && !m.prog.isEmpty

/-- Master `i` becomes `m`. -/
def State.setMaster (i : Nat) (m : Master) (s : State) : State := { s with masters := s.masters.set i m }

/-- What master `i` at line `line` does with the answer to its access: it goes on by `next`, or stops on a bus error, which
leaves all else as it is (20_memory R53). An address HAUTH does not decode is outside the spec (R50). -/
def onReply {α : Type} (reply : Reply α) (i line : Nat) (m : Master) (s : State) (next : α → State) : Outcome :=
  match reply with
  | .ok a => .next (next a)
  | .busError => .next (s.setMaster i (m.stopAt line))
  | .notDecoded => .refused .outsideWindow

/-- One host instruction of master `i`, at line `line` with `rest` after it (30_encoding R79, R80, R84). -/
def runHostInstr (hi : HostInstr) (i line : Nat) (rest : List (Nat × HostInstr)) (m : Master) (s : State) : Outcome :=
  match hi with
  | .wr w off v =>
    onReply (busWrite off (widthBytes w) v s) i line m s fun t => t.setMaster i (m.advance rest m.vars)
  | .rd w off name =>
    onReply (busRead off (widthBytes w) s) i line m s fun (v, t) =>
      t.setMaster i (m.advance rest (setVar name (.num v) m.vars))
  | .poll =>
    onReply (busRead 0x024 4 s) i line m s fun (v, t) =>
      t.setMaster i (m.advance (if v.getLsbD 0 then m.prog else rest) (setVar "s" (.num v) m.vars))
  | .startBytes name => .next (s.setMaster i (m.advance rest (setVar name (.bytes []) m.vars)))
  | .rdAppend w off name =>
    onReply (busRead off (widthBytes w) s) i line m s fun (v, t) =>
      t.setMaster i
        (m.advance rest (setVar name (.bytes (varBytes name m.vars ++ toLanes (widthBytes w) v)) m.vars))

/-- Master `i`'s turn: one host instruction. A master that does not exist, has stopped or has finished does nothing. While
RESET is asserted an access is refused (70_reset_and_hazards R156). -/
def masterTurn (i : Nat) (s : State) : Outcome :=
  match s.masters[i]? with
  | none => .next s
  | some m =>
    match m.stopped, m.prog with
    | some _, _ => .next s
    | none, [] => .next s
    | none, (line, hi) :: rest =>
      if s.rst && makesAccess hi then .refused .busAccessInReset else runHostInstr hi i line rest m s

end Sys2Proof.Machine
end

