-- ==== Sys2Proof/Machine/Sequencer.lean ====
section
/-! DEFINITION. The turns of a run: SEQ's two steps, the masters' accesses and the input pins, in the order the schedule
gives (00_scope R15, 20_memory R65, 70_reset_and_hazards R156-R159). -/

namespace Sys2Proof.Machine

/-- SEQ's turn. While RESET is asserted no SEQ step occurs (70_reset_and_hazards R156); in INIT it ends INIT (R159); in EXEC
it completes the command in PENDING, decoded now (43_control_ops R128, 30_encoding R75); in IDLE it has nothing to do. -/
def seqTurn (s : State) : Outcome :=
  if s.rst then .next s
  else match s.seqState with
    | .init => .next (endInit s)
    | .idle => .next s
    | .exec => exec (decode s.pending) s

/-- One turn. -/
def takeTurn (t : Turn) (s : State) : Outcome :=
  match t with
  | .seq => seqTurn s
  | .master i => masterTurn i s
  | .assertReset => .next (assertReset s)
  | .releaseReset => .next (releaseReset s)
  | .enginePin present => .next { s with enginePresent := present }

/-- Who moves when the schedule says nothing: SEQ where it has a step (it is weakly fair, 43_control_ops R134), else the
first master with an instruction to run. -/
def defaultTurn (s : State) : Turn :=
  if s.rst || s.busy then .seq
  else match s.masters.findIdx? Master.runnable with
    | some i => .master i
    | none => .seq

/-- The next turn, and the state with that turn taken off the schedule. -/
def nextTurn (s : State) : Turn × State :=
  match s.schedule with
  | [] => (defaultTurn s, s)
  | t :: ts => (t, { s with schedule := ts })

end Sys2Proof.Machine
end

