-- ==== Sys2Proof/Machine/Step.lean ====
section
/-! DEFINITION. One step of a run, and a command placed where the next step runs it. -/

namespace Sys2Proof.Machine

/-- One step: the next turn is taken. -/
def step (s : State) : Host.Outcome State Fault Refusal :=
  takeTurn (nextTurn s).1 (nextTurn s).2

/-- `s` with the command word of the bits `w` pending in EXEC and the next turn SEQ's, so that the very next step
completes it. HAUTH fetches nothing (20_memory R70): a command comes to PENDING by a CMD write in IDLE (43_control_ops
R125), which this stands for (notes/assumptions/2.md). -/
def State.withFetchWord (s : State) (nbits w : Nat) : State :=
  { s with pending := tableWord nbits w, seqState := .exec, rst := false, schedule := .seq :: s.schedule }

end Sys2Proof.Machine
end

