-- ==== Sys2Proof/Machine/Timing.lean ====
section
/-! DEFINITION. The command latency as the OPEN function LAT of the arguments it may depend on (70_reset_and_hazards
R170-R174). No step reads it: the model has no time (R175). -/

namespace Sys2Proof.Machine

/-- The outcome of the checks that need no data, NONE where they pass (70_reset_and_hazards R170, 60_exceptions R138). -/
def checkOutcome (i : Instr) (s : State) : ErrCode :=
  let crypto := fun op => match precheck op s with
    | .ok _ => ErrCode.none
    | .error e => e
  match i with
  | .nop => .none
  | .enc => crypto .enc
  | .dec => crypto .dec
  | .tag => crypto .tag
  | .verify => crypto .verify
  | .zeroize => .none
  | .reserved67 _ => .illegalCmd
  | .reserved8F _ => .illegalCmd
  | .illegalUpper _ _ => .illegalCmd

/-- The arguments of LAT for a command at a state (70_reset_and_hazards R170). -/
def latArgs (i : Instr) (s : State) : LatArgs where
  opcode := opcodeField (encode i)
  variant := s.ops.ctrl.variant
  alMode := s.ops.ctrl.alMode == .headerOnly
  aadp := s.ops.ctrl.aadp
  hdrLen := s.ops.hdrLen
  aadLen := s.ops.aadLen
  inLen := s.ops.inLen
  precheck := (checkOutcome i s).number

/-- The cycles from the accepted CMD write to the completion of `i` (70_reset_and_hazards R170). -/
def latency (i : Instr) (s : State) : Nat := Config.lat (latArgs i s)

end Sys2Proof.Machine
end

