-- ==== Sys2Proof/Safety.lean ====
section
/-! DEFINITION. What a good state of a run is: the invariant every step keeps, and the end of a run (00_scope R16). -/

namespace Sys2Proof.Machine

/-- The invariant of the block, from the spec's whole-machine sentences. -/
structure State.Inv (s : State) : Prop where
  /-- the RAM is in its canonical form and inside MSG_RAM_BYTES (10_state R42) -/
  ram_wf : Memory.wf s.ram
  /-- while busy no result shows: DONE, ERR, AUTHOK, ERRCODE and the outputs are clear (43_control_ops R125,
  70_reset_and_hazards R157, R163) -/
  busy_quiet : s.seqState ≠ .idle →
    s.flags.done = false ∧ s.flags.err = false ∧ s.flags.authOk = false ∧ s.flags.errCode = .none ∧ s.out = .zero
  /-- during INIT the registers and windows hold their reset values (70_reset_and_hazards R158, 10_state R48), and so does
  the RAM, which is the model's reading (notes/assumptions/14.md) -/
  init_reset : s.seqState = .init → s.ops = .reset ∧ s.win = .zero ∧ s.ram = [] ∧ s.pending = 0
  /-- while RESET is asserted SEQSTATE is held (70_reset_and_hazards R156), at INIT by the model's choice
  (notes/assumptions/8.md) -/
  reset_held : s.rst = true → s.seqState = .init
  /-- ERR says there is an error code (10_state R29) -/
  err_has_code : s.flags.err = true → s.flags.errCode ≠ .none
  /-- an error completion shows no output (43_control_ops R129, 60_exceptions R136) -/
  error_no_output : s.flags.errCode ≠ .none → s.out = .zero
  /-- AUTHOK stands with no tag output, and with no error but ENGINE_FAILURE (41_content_ops R112, 42_tag_ops R120) -/
  authOk_code : s.flags.authOk = true →
    s.out.tagOutLen = 0 ∧ (s.flags.errCode = .none ∨ s.flags.errCode = .engineFailure)
  /-- TAGOUTLEN is 0 or a variant's tag length (10_state R37) -/
  tagOutLen_legal : s.out.tagOutLen.toNat ∈ [0, 16, 24, 32]
  /-- the bytes of TAGOUTW past the tag are 0x00 (10_state R41) -/
  tagOut_tail : ∀ i, s.out.tagOutLen.toNat ≤ i → s.out.tagOutw.toList.getD i 0 = 0

/-- A master has come to the end of its program, or was stopped by a bus error (00_scope R16, 30_encoding R79). -/
def Master.finished (m : Master) : Bool := m.stopped.isSome || m.prog.isEmpty

/-- The run is finished: every master's program has ended and no command is in flight. 00_scope R16 says it of one host
program; that a run of several masters ends with the last of their programs is the model's choice: DESIGN CHOICE, safe
(notes/assumptions/19.md). -/
def State.finished (s : State) : Bool := s.masters.all Master.finished && !s.busy

end Sys2Proof.Machine
end

