-- ==== Sys2Proof/Certificates/Slice0/Obligations.lean ====
section
/-! DEFINITION. The statements for the provers. Each formalises rules of spec/ or is derived from them; its docstring says
which. The states after a completion are written out here, not taken from the model's `complete`. -/

namespace Sys2Proof.Claims

open Sys2Proof.Machine

/-- All the checks of Precheck hold (60_exceptions R138, R139), and `p` is the variant's row (40_tag_protocol R86). -/
def Passes (op : CryptoOp) (s : State) (p : Par) : Prop :=
  s.engRdy = true ∧ par s.ops.ctrl.variant = some p ∧ s.ops.cekLen.toNat = p.cekBytes ∧
  s.ops.hdrOff.toNat + s.ops.hdrLen.toNat ≤ 4096 ∧
  (s.ops.ctrl.aadp = true → s.ops.aadOff.toNat + s.ops.aadLen.toNat ≤ 4096) ∧
  s.ops.inOff.toNat + s.ops.inLen.toNat ≤ 4096 ∧
  (op = .enc → s.ops.outOff.toNat + 16 * (s.ops.inLen.toNat / 16 + 1) ≤ 4096) ∧
  (op = .dec → s.ops.outOff.toNat + s.ops.inLen.toNat ≤ 4096)

/-- The command of a crypto operation (30_encoding R74). -/
def command : CryptoOp → Instr
  | .enc => .enc
  | .dec => .dec
  | .tag => .tag
  | .verify => .verify

/-- The state after a successful crypto command that leaves the RAM `ram`, wrote `outLen` output bytes and shows `tag`:
43_control_ops R128-R130. Every field not named is as before, PENDING too (notes/assumptions/9.md). -/
def succeeded (s : State) (ram : Memory) (outLen : Nat) (tag : Bytes) (authOk : Bool) : State :=
  { s with
    ram := ram
    win := .zero
    out := { outLen := BitVec.ofNat 16 outLen, tagOutLen := BitVec.ofNat 6 tag.length, tagOutw := windowOf 32 tag }
    flags := { s.flags with done := true, err := false, authOk := authOk, errCode := .none }
    seqState := .idle }

/-- The state after an error completion: 43_control_ops R128-R130, the raised-error branch. Every field not named, the
RAM among them, is as before. -/
def failed (s : State) (code : ErrCode) (authOk : Bool) : State :=
  { s with
    win := .zero
    out := .zero
    flags := { s.flags with done := true, err := true, authOk := authOk, errCode := code }
    seqState := .idle }

/-- The tag of ciphertext `c` under the operands of `s`, written out (40_tag_protocol R87-R93). -/
def tagOver (s : State) (p : Par) (c : Bytes) : Bytes :=
  (hmac p ((cekOf s).take p.halfBytes)
    (authInput (headerOf s) (aadOf s) ++ ivOf s ++ c ++
      be64 (8 * (match s.ops.ctrl.alMode with
        | .authInput => (authInput (headerOf s) (aadOf s)).length
        | .headerOnly => (headerOf s).length)))).take p.tlen

/-- The supplied tag is the tag over the input: equal length and equal bytes (40_tag_protocol R97). -/
def TagMatches (s : State) (p : Par) : Prop :=
  s.ops.tagInLen.toNat = p.tlen ∧ s.win.tagInw.toList.take p.tlen = tagOver s p (inputOf s)

/-- ENC's next state by the engine's response (41_content_ops R108, R109; 40_tag_protocol R100). -/
def encNext (eng : Engine) (s : State) (p : Par) : State :=
  match eng .enc ((cekOf s).drop p.halfBytes) (ivOf s) (inputOf s) with
  | .fail => failed s .engineFailure false
  | .ok c =>
    if c.length = 16 * (s.ops.inLen.toNat / 16 + 1) then
      succeeded s (Memory.writeBytes s.ram s.ops.outOff.toNat c) c.length (tagOver s p c) false
    else failed s .engineFailure false

/-- DEC's next state, once the tag has matched, by the engine's response (41_content_ops R112; 40_tag_protocol R101). -/
def decNext (eng : Engine) (s : State) (p : Par) : State :=
  match eng .dec ((cekOf s).drop p.halfBytes) (ivOf s) (inputOf s) with
  | .fail => failed s .engineFailure true
  | .ok pt =>
    if pt.length ≤ s.ops.inLen.toNat then
      succeeded s (Memory.writeBytes s.ram s.ops.outOff.toNat pt) pt.length [] true
    else failed s .engineFailure true

/-- The operands of a crypto command other than its input agree (30_encoding R77). -/
def SameKeyAndContext (s s' : State) : Prop :=
  s'.ops.ctrl = s.ops.ctrl ∧ cekOf s' = cekOf s ∧ ivOf s' = ivOf s ∧ headerOf s' = headerOf s ∧ aadOf s' = aadOf s

/-- The output region a completed ENC or DEC left in the RAM (10_state R36). -/
def outputOf (t : State) : Bytes := Memory.readBytes t.ram t.ops.outOff.toNat t.out.outLen.toNat

/-- The offsets nothing is mapped at: those of 20_memory R59, and every one past the window (R50). -/
def Unmapped (off : Nat) : Prop :=
  (0x054 ≤ off ∧ off < 0x100) ∨ (0x150 ≤ off ∧ off < 0x180) ∨ (0x1A0 ≤ off ∧ off < 0x1C0) ∨
  (0x1E0 ≤ off ∧ off < 0x1000) ∨ 0x2000 ≤ off

/-- The accesses that are not legal (20_memory R54, R57-R59). -/
def Illegal (off n : Nat) : Prop :=
  (n ≠ 1 ∧ n ≠ 2 ∧ n ≠ 4) ∨ (off < 0x100 ∧ n ≠ 4) ∨ off % n ≠ 0 ∨ Unmapped off

/-- A natural access of `n` bytes at index `i` of a region of `size` bytes (20_memory R57, R58). -/
def Natural (i n size : Nat) : Prop := (n = 1 ∨ n = 2 ∨ n = 4) ∧ i % n = 0 ∧ i + n ≤ size

/-- The value a read answers. -/
def readValue : Reply (Word × State) → Option Word
  | .ok a => some a.1
  | .busError => none
  | .notDecoded => none

/-- The operand registers: the offset, the bits it stores, and the field of State that holds them (10_state R30-R35). -/
def operandFields : List (Nat × Word × (Operands → Word)) :=
  [(0x028, 0x7F, fun o => o.cekLen.setWidth 32), (0x02C, 0x3F, fun o => o.tagInLen.setWidth 32),
    (0x030, 0xFFFF, fun o => o.hdrOff.setWidth 32), (0x034, 0xFFFF, fun o => o.hdrLen.setWidth 32),
    (0x038, 0xFFFF, fun o => o.aadOff.setWidth 32), (0x03C, 0xFFFF, fun o => o.aadLen.setWidth 32),
    (0x040, 0xFFFF, fun o => o.inOff.setWidth 32), (0x044, 0xFFFF, fun o => o.inLen.setWidth 32),
    (0x048, 0xFFFF, fun o => o.outOff.setWidth 32)]

/-- The big-endian number of a byte string. -/
def beNumber (bs : Bytes) : Nat := bs.foldl (fun x b => 256 * x + b.toNat) 0

/-- The writes of a list of host instructions, one after the other; none where one is refused or is no write. -/
def performWrites : List HostInstr → State → Option State
  | [], s => some s
  | .wr w off v :: his, s =>
    match busWrite off (widthBytes w) v s with
    | .ok t => performWrites his t
    | .busError => none
    | .notDecoded => none
  | _ :: _, _ => none

/-- Master `i` is about to run `hi`, of line `line`, with RESET low and the next turn its own. -/
def MasterAt (s : State) (i : Nat) (m : Master) (line : Nat) (hi : HostInstr) (rest : List (Nat × HostInstr))
    (ts : List Turn) : Prop :=
  s.schedule = .master i :: ts ∧ s.masters[i]? = some m ∧ m.stopped = none ∧ m.prog = (line, hi) :: rest

/-- `m'` is `m` gone on to `rest`, with its variable `name` holding `val` and every other one as it was. -/
def GoesOn (m : Master) (rest : List (Nat × HostInstr)) (name : VarName) (val : HostVal) (m' : Master) : Prop :=
  m'.prog = rest ∧ m'.stopped = m.stopped ∧ getVar name m'.vars = some val ∧
  ∀ other, other ≠ name → getVar other m'.vars = getVar other m.vars

/-- The byte string an append to the variable `name` goes on from: the one it holds, else the empty one
(notes/assumptions/13.md). -/
def HoldsBytes (m : Master) (name : VarName) (bs : Bytes) : Prop :=
  getVar name m.vars = some (.bytes bs) ∨ (bs = [] ∧ ∀ b, getVar name m.vars ≠ some (.bytes b))

end Sys2Proof.Claims

open Sys2Proof Sys2Proof.Machine Sys2Proof.Claims

/-! ### Reset, the invariant, the step -/

/-- 10_state R48: every value the spec gives the block after reset release, and that the end of INIT changes BUSY alone.
That every RAM byte reads 0 before INIT ends too is the model's reading (notes/assumptions/14.md).
(The model's own fields of State are not stated here.) -/
def Obligations.ResetHasTheSpecValues : Prop :=
  State.reset.ops.ctrl = ⟨0, .authInput, false, false⟩ ∧
  State.reset.ops.cekLen = 0 ∧ State.reset.ops.tagInLen = 0 ∧
  State.reset.ops.hdrOff = 0 ∧ State.reset.ops.hdrLen = 0 ∧ State.reset.ops.aadOff = 0 ∧ State.reset.ops.aadLen = 0 ∧
  State.reset.ops.inOff = 0 ∧ State.reset.ops.inLen = 0 ∧ State.reset.ops.outOff = 0 ∧
  State.reset.out.outLen = 0 ∧ State.reset.out.tagOutLen = 0 ∧
  (∀ i, State.reset.win.cekw.toList.getD i 0 = 0) ∧ (∀ i, State.reset.win.ivw.toList.getD i 0 = 0) ∧
  (∀ i, State.reset.win.tagInw.toList.getD i 0 = 0) ∧ (∀ i, State.reset.out.tagOutw.toList.getD i 0 = 0) ∧
  (∀ a, Memory.read State.reset.ram a = 0) ∧
  State.reset.seqState = .init ∧ State.reset.pending = 0 ∧ State.reset.irq = false ∧
  State.reset.engRdy = Config.enginePresent ∧
  statusWord State.reset = (if Config.enginePresent then 0x11 else 0x01) ∧
  busRead 0x000 4 State.reset = .ok (0x4A4F5345, State.reset) ∧ busRead 0x004 4 State.reset = .ok (1, State.reset) ∧
  busRead 0x00C 4 State.reset = .ok (256, State.reset) ∧ busRead 0x010 4 State.reset = .ok (256, State.reset) ∧
  busRead 0x014 4 State.reset = .ok (128, State.reset) ∧ busRead 0x018 4 State.reset = .ok (0, State.reset) ∧
  busRead 0x01C 4 State.reset = .ok (16, State.reset) ∧
  ∀ ts, step { State.reset with schedule := .seq :: ts } = .next { State.reset with schedule := ts, seqState := .idle }

/-- The invariant holds at reset. Its clause that the RAM holds 0x00 during INIT is the model's reading
(notes/assumptions/14.md). -/
def Obligations.InvariantHoldsAtReset : Prop := State.reset.Inv

/-- Every step from a state of the invariant that answers a next state answers one of the invariant. Two clauses of it are
the model's: that the RAM holds 0x00 during INIT (notes/assumptions/14.md), and that SEQSTATE is INIT while RESET is asserted
(notes/assumptions/8.md). -/
def Obligations.EveryStepKeepsInvariant : Prop :=
  ∀ s t : State, s.Inv → step s = .next t → t.Inv

/-- 43_control_ops R127, R128, R134: with RESET low, SEQ's turn in EXEC runs the command decoded from PENDING, takes the
turn off the schedule and does nothing else; so does the default turn; and `withFetchWord` lays a word down for exactly
that. -/
def Obligations.StepRunsPendingCommand : Prop :=
  (∀ (s : State) (ts : List Turn), s.schedule = .seq :: ts → s.rst = false → s.seqState = .exec →
    step s = exec (decode s.pending) { s with schedule := ts }) ∧
  (∀ s : State, s.schedule = [] → s.rst = false → s.seqState = .exec → step s = exec (decode s.pending) s) ∧
  (∀ (s : State) (w : Word), step (s.withFetchWord 32 w.toNat)
    = exec (decode w) { s with pending := w, seqState := .exec, rst := false })

/-- 10_state R43: the transitions of SEQSTATE and no other. (Asserting RESET already puts the model's SEQSTATE at INIT,
where it is held: notes/assumptions/8.md.) -/
def Obligations.SeqStateTransitions : Prop :=
  ∀ s t : State, step s = .next t → t.seqState ≠ s.seqState →
    (s.seqState = .init ∧ t.seqState = .idle ∧ s.rst = false ∧ t.flags.done = s.flags.done) ∨
    (s.seqState = .idle ∧ t.seqState = .exec ∧ s.rst = false ∧ t.flags.done = false) ∨
    (s.seqState = .exec ∧ t.seqState = .idle ∧ s.rst = false ∧ t.flags.done = true) ∨
    (t.seqState = .init ∧ ((nextTurn s).1 = .assertReset ∨ ((nextTurn s).1 = .releaseReset ∧ s.rst = true)))

/-- 10_state R45: ENGRDY takes the level of ENGINE_PRESENT in a reset and is constant until the next one. -/
def Obligations.EngineReadyChangesOnlyInReset : Prop :=
  ∀ s t : State, step s = .next t →
    (t.engRdy = s.engRdy ∨
      (((nextTurn s).1 = .assertReset ∨ (nextTurn s).1 = .releaseReset) ∧ t.engRdy = s.enginePresent)) ∧
    (statusWord s).getLsbD 4 = s.engRdy

/-- 10_state R29, 60_exceptions R149: OVR, once set, is cleared by a write of 1 to its bit of STATUS or by reset, and by
nothing else. -/
def Obligations.OverrunIsSticky : Prop :=
  ∀ s t : State, step s = .next t → s.flags.ovr = true → t.flags.ovr = false →
    (nextTurn s).1 = .assertReset ∨ (nextTurn s).1 = .releaseReset ∨
    ∃ i m line v rest, (nextTurn s).1 = .master i ∧ s.masters[i]? = some m ∧
      m.prog = (line, .wr .w32 0x024 v) :: rest ∧ v.getLsbD 5 = true

/-- 70_reset_and_hazards R156, R160: asserting RESET, in any state, puts every piece of block state at its reset value; a
command in flight is abandoned and DONE is 0. The model's own: SEQSTATE and ENGRDY meanwhile (notes/assumptions/8.md,
notes/assumptions/11.md), and that the RAM is clear at once (notes/assumptions/14.md). -/
def Obligations.AssertingResetClearsTheBlock : Prop :=
  ∀ (s : State) (ts : List Turn), s.schedule = .assertReset :: ts →
    step s = .next { s with
      schedule := ts, rst := true, ops := .reset, win := .zero, out := .zero, flags := .reset, ram := []
      seqState := .init, pending := 0, engRdy := s.enginePresent }

/-- 70_reset_and_hazards R156: while RESET is asserted SEQ takes no step, and a master's access is refused. -/
def Obligations.NothingRunsWhileResetIsAsserted : Prop :=
  (∀ (s : State) (ts : List Turn), s.schedule = .seq :: ts → s.rst = true →
    step s = .next { s with schedule := ts }) ∧
  (∀ (s : State) (i : Nat) (m : Master) (line : Nat) (hi : HostInstr) (rest : List (Nat × HostInstr)) (ts : List Turn),
    MasterAt s i m line hi rest ts → s.rst = true → (∀ name, hi ≠ .startBytes name) →
    step s = .refused .busAccessInReset)

/-- 70_reset_and_hazards R157: RESET's release samples ENGINE_PRESENT and enters INIT; STATUS then reads
`0x00000001 | (ENGINE_PRESENT << 4)`. That the RAM is clear at once, where R157 begins its clearing, is the model's reading
(notes/assumptions/14.md). -/
def Obligations.ReleasingResetEntersInit : Prop :=
  ∀ (s : State) (ts : List Turn), s.schedule = .releaseReset :: ts → s.rst = true →
    step s = .next { s with
      schedule := ts, rst := false, ops := .reset, win := .zero, out := .zero, flags := .reset, ram := []
      seqState := .init, pending := 0, engRdy := s.enginePresent } ∧
    ∀ t : State, step s = .next t → statusWord t = (if s.enginePresent then 0x11 else 0x01)

/-- 70_reset_and_hazards R159: the end of INIT sets SEQSTATE to IDLE, leaves every RAM and window byte 0x00 and DONE as it
was, and raises no IRQ. -/
def Obligations.EndOfInitGoesIdle : Prop :=
  ∀ (s : State) (ts : List Turn), s.schedule = .seq :: ts → s.rst = false → s.seqState = .init →
    ∃ t, step s = .next t ∧
      t = { s with schedule := ts, seqState := .idle, win := .zero, ram := [],
                   out := { s.out with tagOutw := Vector.replicate 32 0 } } ∧
      (∀ a, Memory.read t.ram a = 0) ∧ t.busy = false ∧ t.irq = s.irq

/-! ### Encoding -/

/-- 30_encoding R75: decoding is total; which instruction a word is. -/
def Obligations.DecodingFollowsTheOpcodeMap : Prop :=
  ∀ w : Word,
    (w.toNat / 16 ≠ 0 → ∃ u o, decode w = .illegalUpper u o) ∧
    (w.toNat = 0 → decode w = .nop) ∧ (w.toNat = 1 → decode w = .enc) ∧ (w.toNat = 2 → decode w = .dec) ∧
    (w.toNat = 3 → decode w = .tag) ∧ (w.toNat = 4 → decode w = .verify) ∧ (w.toNat = 5 → decode w = .zeroize) ∧
    (w.toNat = 6 ∨ w.toNat = 7 → ∃ l, decode w = .reserved67 l) ∧
    (8 ≤ w.toNat ∧ w.toNat ≤ 15 → ∃ l, decode w = .reserved8F l)

/-- Decode and encode agree, both ways, on every instruction and every word (30_encoding R73-R76). -/
def Obligations.DecodeAndEncodeAgree : Prop :=
  (∀ i : Instr, i.wf = true → decode (encode i) = i) ∧
  (∀ w : Word, (decode w).wf = true ∧ encode (decode w) = w)

/-- Words written out from the opcode map (30_encoding R74) decode to the commands they stand for. -/
def Obligations.SampleWordsDecode : Prop :=
  decode 0x00000000 = .nop ∧ decode 0x00000001 = .enc ∧ decode 0x00000002 = .dec ∧ decode 0x00000003 = .tag ∧
  decode 0x00000004 = .verify ∧ decode 0x00000005 = .zeroize ∧ decode 0x00000007 = .reserved67 1 ∧
  decode 0x0000000F = .reserved8F 7 ∧ decode 0x00000010 = .illegalUpper 1 0 ∧
  decode 0x80000001 = .illegalUpper 0x8000000 1

/-! ### Commands: results -/

/-- 43_control_ops R131: NOP, in every state. That PENDING keeps its word is the model's reading (notes/assumptions/9.md). -/
def Obligations.NopCompletes : Prop :=
  decode 0x00000000 = .nop ∧
  (∀ s : State, exec .nop s = .next { s with
    out := .zero
    flags := { s.flags with done := true, err := false, authOk := false, errCode := .none }
    seqState := .idle }) ∧
  (∀ s : State, (issue 0x00000000 s).out = .zero) ∧
  (∀ s t : State, s.engRdy = true → s.flags.ovr = false → exec .nop (issue 0x00000000 s) = .next t →
    statusWord t = 0x00000012 ∧ t.win.cekw = s.win.cekw)

/-- 43_control_ops R132: ZEROIZE, in every state. That PENDING keeps its word is the model's reading
(notes/assumptions/9.md). -/
def Obligations.ZeroizeCompletes : Prop :=
  decode 0x00000005 = .zeroize ∧
  ∀ s : State, ∃ t, exec .zeroize s = .next t ∧
    t = { s with
      ram := [], win := .zero, out := .zero
      flags := { s.flags with done := true, err := false, authOk := false, errCode := .none }
      seqState := .idle } ∧
    ∀ a, Memory.read t.ram a = 0

/-- 43_control_ops R133, 30_encoding R76: every reserved or illegal word completes with ILLEGAL_CMD, in every state. -/
def Obligations.IllegalWordsComplete : Prop :=
  (∀ (low : BitVec 1) (s : State), exec (.reserved67 low) s = .next (failed s .illegalCmd false)) ∧
  (∀ (low : BitVec 3) (s : State), exec (.reserved8F low) s = .next (failed s .illegalCmd false)) ∧
  (∀ (upper : BitVec 28) (opcode : BitVec 4) (s : State),
    exec (.illegalUpper upper opcode) s = .next (failed s .illegalCmd false)) ∧
  (∀ (w : Word) (s : State), w.toNat / 16 ≠ 0 ∨ (6 ≤ w.toNat ∧ w.toNat ≤ 15) →
    exec (decode w) s = .next (failed s .illegalCmd false))

/-- 41_content_ops R108, R109: ENC, where Precheck passes, with the hardware's engine and with any other. -/
def Obligations.EncCompletes : Prop :=
  ∀ (s : State) (p : Par), Passes .enc s p →
    exec .enc s = .next (encNext Config.engine s p) ∧
    ∀ eng : Engine, execEncWith eng s = .next (encNext eng s p)

/-- 41_content_ops R112-R114: DEC, where Precheck passes: AUTH_FAIL with no plaintext unless the tag matches, and the
engine's response once it does. -/
def Obligations.DecCompletes : Prop :=
  ∀ (s : State) (p : Par), Passes .dec s p →
    (¬ TagMatches s p → exec .dec s = .next (failed s .authFail false)) ∧
    (TagMatches s p → exec .dec s = .next (decNext Config.engine s p) ∧
      ∀ eng : Engine, execDecWith eng s = .next (decNext eng s p))

/-- 42_tag_ops R117, R118: TAG, where Precheck passes. -/
def Obligations.TagCompletes : Prop :=
  ∀ (s : State) (p : Par), Passes .tag s p →
    exec .tag s = .next (succeeded s s.ram 0 (tagOver s p (inputOf s)) false)

/-- 42_tag_ops R120, R121: VERIFY, where Precheck passes. -/
def Obligations.VerifyCompletes : Prop :=
  ∀ (s : State) (p : Par), Passes .verify s p →
    (TagMatches s p → exec .verify s = .next (succeeded s s.ram 0 [] true)) ∧
    (¬ TagMatches s p → exec .verify s = .next (failed s .authFail false))

/-- 60_exceptions R138, R140: the first check of Precheck that fails decides the error of every crypto command. -/
def Obligations.PrecheckErrorsInOrder : Prop :=
  ∀ (op : CryptoOp) (s : State),
    (s.engRdy = false → exec (command op) s = .next (failed s .engineUnavailable false)) ∧
    (s.engRdy = true → s.ops.ctrl.variant = 3 → exec (command op) s = .next (failed s .illegalCfg false)) ∧
    (∀ p, s.engRdy = true → par s.ops.ctrl.variant = some p → s.ops.cekLen.toNat ≠ p.cekBytes →
      exec (command op) s = .next (failed s .invalidKeyLength false)) ∧
    (∀ p, s.engRdy = true → par s.ops.ctrl.variant = some p → s.ops.cekLen.toNat = p.cekBytes → ¬ Passes op s p →
      exec (command op) s = .next (failed s .rangeError false))

/-! ### Commands: frames and whole-machine rules -/

/-- 43_control_ops R128, R134: every command completes, from every state, in IDLE with DONE = 1, and ERR says whether
there is an error code. -/
def Obligations.EveryCommandCompletes : Prop :=
  ∀ (i : Instr) (s : State), ∃ t, exec i s = .next t ∧ t.seqState = .idle ∧ t.flags.done = true ∧
    (t.flags.err = true ↔ t.flags.errCode ≠ .none)

/-- 43_control_ops R135, the frame of every command over the registers: the operand registers, ENGRDY and OVR are
unchanged, and so are the pins and the host side. -/
def Obligations.CommandsLeaveRegistersAlone : Prop :=
  ∀ (i : Instr) (s t : State), exec i s = .next t →
    t.ops = s.ops ∧ t.engRdy = s.engRdy ∧ t.flags.ovr = s.flags.ovr ∧ t.rst = s.rst ∧
    t.enginePresent = s.enginePresent ∧ t.draws = s.draws ∧ t.masters = s.masters ∧ t.schedule = s.schedule

/-- 43_control_ops R130: every completion but NOP's clears CEKW, IVW and TAGINW; NOP's leaves them. -/
def Obligations.CompletionClearsTransientWindows : Prop :=
  ∀ (i : Instr) (s t : State), exec i s = .next t →
    (i ≠ .nop → (∀ k, t.win.cekw.toList.getD k 0 = 0) ∧ (∀ k, t.win.ivw.toList.getD k 0 = 0) ∧
      (∀ k, t.win.tagInw.toList.getD k 0 = 0)) ∧
    (i = .nop → t.win = s.win)

/-- 10_state R42, the frame of every command over the RAM, byte by byte: ZEROIZE clears every byte; ENC and DEC write only
the OUT_LEN bytes from OUT_OFF on; the others write none. -/
def Obligations.CommandsWriteOnlyTheirOutputRegion : Prop :=
  ∀ (i : Instr) (s t : State), exec i s = .next t →
    (i = .zeroize → ∀ a, Memory.read t.ram a = 0) ∧
    (i = .enc ∨ i = .dec → ∀ a, a < s.ops.outOff.toNat ∨ s.ops.outOff.toNat + t.out.outLen.toNat ≤ a →
      Memory.read t.ram a = Memory.read s.ram a) ∧
    (i ≠ .zeroize → i ≠ .enc → i ≠ .dec → ∀ a, Memory.read t.ram a = Memory.read s.ram a)

/-- 60_exceptions R136, R145: an error completion changes no state but what 43_control_ops R129 and R130 list. -/
def Obligations.ErrorCompletionsArePrecise : Prop :=
  ∀ (i : Instr) (s t : State), exec i s = .next t → t.flags.errCode ≠ .none →
    t = failed s t.flags.errCode t.flags.authOk ∧
    (i ≠ .dec → t.flags.authOk = false) ∧ (t.flags.errCode ≠ .engineFailure → t.flags.authOk = false)

/-- 41_content_ops R108, R110: after a successful ENC the OUT_LEN bytes at OUT_OFF are the engine's ciphertext, whatever
regions overlap. -/
def Obligations.EncLeavesTheCiphertextInRam : Prop :=
  ∀ (eng : Engine) (s t : State), Memory.wf s.ram → execEncWith eng s = .next t → t.flags.errCode = .none →
    eng .enc ((cekOf s).drop ((cekOf s).length / 2)) (ivOf s) (inputOf s) = .ok (outputOf t) ∧
    (outputOf t).length = 16 * ((inputOf s).length / 16 + 1)

/-- 42_tag_ops R119: TAG over the ciphertext ENC produced gives ENC's tag. -/
def Obligations.EncAndTagAgree : Prop :=
  ∀ (eng : Engine) (s t s' : State) (p : Par), Memory.wf s.ram → Passes .enc s p → execEncWith eng s = .next t →
    t.flags.errCode = .none → SameKeyAndContext s s' → inputOf s' = outputOf t → Passes .tag s' p →
    ∃ t', exec .tag s' = .next t' ∧ t'.flags.errCode = .none ∧ t'.out.tagOutw = t.out.tagOutw ∧
      t'.out.tagOutLen = t.out.tagOutLen

/-- 41_content_ops R115: with the reference engine over any block cipher, DEC of what ENC produced gives the plaintext
back. -/
def Obligations.EncThenDecRoundTrips : Prop :=
  ∀ (b : BlockCipher) (s : State) (p : Par), b.Valid → Memory.wf s.ram → Passes .enc s p →
    ∃ t, execEncWith (refEngine b) s = .next t ∧ t.flags.errCode = .none ∧
      ∀ s' : State, Memory.wf s'.ram → SameKeyAndContext s s' → inputOf s' = outputOf t →
        s'.win.tagInw = t.out.tagOutw → s'.ops.tagInLen = t.out.tagOutLen → Passes .dec s' p →
        ∃ t', execDecWith (refEngine b) s' = .next t' ∧ t'.flags.errCode = .none ∧ t'.flags.authOk = true ∧
          outputOf t' = inputOf s

/-- 42_tag_ops R122: VERIFY finds the tags equal exactly when DEC, on the same operands, gets past its compare. -/
def Obligations.VerifyAndDecAgree : Prop :=
  ∀ (s : State) (p : Par), Passes .dec s p →
    ∃ tv td, exec .verify s = .next tv ∧ exec .dec s = .next td ∧
      (tv.flags.authOk = true ↔
        td.flags.authOk = true ∧ (td.flags.errCode = .none ∨ td.flags.errCode = .engineFailure)) ∧
      (tv.flags.errCode = .authFail ↔ td.flags.errCode = .authFail)

/-- 40_tag_protocol R102, R103: ENC and DEC depend on the engine only through its answer to (encKey, IV, data), and DEC
with a tag that does not match does not depend on it at all. -/
def Obligations.EngineIsGivenOnlyKeyIvAndData : Prop :=
  ∀ (eng eng' : Engine) (s : State),
    (eng .enc (keySplit (cekOf s)).2 (ivOf s) (inputOf s) = eng' .enc (keySplit (cekOf s)).2 (ivOf s) (inputOf s) →
      execEncWith eng s = execEncWith eng' s) ∧
    (eng .dec (keySplit (cekOf s)).2 (ivOf s) (inputOf s) = eng' .dec (keySplit (cekOf s)).2 (ivOf s) (inputOf s) →
      execDecWith eng s = execDecWith eng' s) ∧
    (∀ t, execDecWith eng s = .next t → t.flags.errCode = .authFail → execDecWith eng' s = .next t)

/-- 41_content_ops R116, 90_conflicts C7: the encKey half of the CEK does not enter the tag. -/
def Obligations.EncKeyHalfDoesNotEnterTheTag : Prop :=
  ∀ (p : Par) (macKey encKey encKey' iv h : Bytes) (a : Option Bytes) (c : Bytes) (mode : AlMode),
    encKey.length = macKey.length → encKey'.length = macKey.length →
    computeTag p (macKey ++ encKey) iv h a c mode = computeTag p (macKey ++ encKey') iv h a c mode

/-! ### The tag protocol -/

/-- 00_scope R7, R8; 40_tag_protocol R86: the variant parameter set and its relations. -/
def Obligations.VariantParametersAreRelated : Prop :=
  par 3 = none ∧ (∀ v : BitVec 2, v ≠ 3 → ∃ p, par v = some p) ∧
  ∀ (v : BitVec 2) (p : Par), par v = some p →
    p.cekBytes = p.dlen ∧ p.cekBytes = 2 * p.halfBytes ∧ p.dlen = 2 * p.tlen ∧
    p.dlen = (if v = 0 then 32 else if v = 1 then 48 else 64) ∧ p.blk = (if v = 0 then 64 else 128)

/-- 40_tag_protocol R87, R88: the key split of a CEK of the variant's length. -/
def Obligations.KeySplitBisectsTheCek : Prop :=
  (∀ (v : BitVec 2) (p : Par) (cek : Bytes), par v = some p → cek.length = p.cekBytes →
    (keySplit cek).1 ++ (keySplit cek).2 = cek ∧ (keySplit cek).1.length = p.halfBytes ∧
    (keySplit cek).2.length = p.halfBytes ∧ (keySplit cek).2.length = (if v = 0 then 16 else if v = 1 then 24 else 32)) ∧
  keySplit ((List.range 32).map (BitVec.ofNat 8)) =
    ((List.range 16).map (BitVec.ofNat 8), (List.range 16).map fun k => BitVec.ofNat 8 (16 + k))

/-- 40_tag_protocol R89: an absent AAD adds nothing, a present one a "." and itself, so absent and empty differ. -/
def Obligations.AbsentAadDiffersFromEmptyAad : Prop :=
  ∀ (h a : Bytes), authInput h none = h ∧ authInput h (some a) = h ++ [0x2E] ++ a ∧
    (authInput h (some [])).length = (authInput h none).length + 1

/-- 40_tag_protocol R90, R91: AL is the 64-bit big-endian bit length, of authInput or of the header, with no wrap for any
header and AAD the 16-bit length registers can name. -/
def Obligations.AlIsTheBigEndianBitLength : Prop :=
  ∀ (h : Bytes) (a : Option Bytes), h.length ≤ 0xFFFF → (∀ x, a = some x → x.length ≤ 0xFFFF) →
    (alField .authInput h a).length = 8 ∧ (alField .headerOnly h a).length = 8 ∧
    beNumber (alField .authInput h a) = 8 * (authInput h a).length ∧
    beNumber (alField .headerOnly h a) = 8 * h.length

/-- 40_tag_protocol R96: the three hashes have the stated output lengths on every message. -/
def Obligations.HashesHaveTheirStatedLengths : Prop :=
  ∀ m : Bytes, (hashOf .sha256 m).length = 32 ∧ (hashOf .sha384 m).length = 48 ∧ (hashOf .sha512 m).length = 64

/-- 40_tag_protocol R93: a tag is half the digest, and has the variant's tag length. -/
def Obligations.TagIsHalfTheDigest : Prop :=
  ∀ (v : BitVec 2) (p : Par) (cek iv h : Bytes) (a : Option Bytes) (c : Bytes) (mode : AlMode), par v = some p →
    (computeTag p cek iv h a c mode).length = p.tlen ∧
    ∃ rest, computeTag p cek iv h a c mode ++ rest = hmac p (keySplit cek).1 (macInput h a iv c mode) ∧
      rest.length = p.tlen

/-- 40_tag_protocol R97: CTEQ answers true exactly when the declared length is the tag's and the tag's bytes agree; so the
bytes past the tag never matter, and a declared length of 0 or above 32 never matches. -/
def Obligations.CompareIsExactEquality : Prop :=
  ∀ (v : BitVec 2) (p : Par) (t s : Bytes) (slen : Nat), par v = some p → t.length = p.tlen → s.length = 32 →
    (ctEq t p.tlen s slen = true ↔ slen = p.tlen ∧ s.take p.tlen = t) ∧
    (slen = 0 ∨ 32 < slen → ctEq t p.tlen s slen = false)

/-- 40_tag_protocol R105-R107: the reference engine over any block cipher never fails to encrypt, pads to the next
multiple of 16, and decrypts what it encrypted. -/
def Obligations.ReferenceEngineRoundTrips : Prop :=
  ∀ (b : BlockCipher) (k iv p : Bytes), b.Valid → k.length ∈ [16, 24, 32] → iv.length = 16 →
    ∃ c, refEngine b .enc k iv p = .ok c ∧ c.length = 16 * (p.length / 16 + 1) ∧ refEngine b .dec k iv c = .ok p

/-! ### The bus -/

/-- 20_memory R50, R54, R57-R59: which accesses are answered with a bus error and which are not decoded, and no others are,
in any state. That offset 0x2000, the end of the window, is answered with a bus error is the model's reading of vector V-B9
(notes/assumptions/7.md). -/
def Obligations.BusErrorsAreTheIllegalAccesses : Prop :=
  ∀ (off n : Nat) (v : Word) (s : State),
    (busRead off n s = .busError ↔ off ≤ 0x2000 ∧ Illegal off n) ∧
    (busWrite off n v s = .busError ↔ off ≤ 0x2000 ∧ Illegal off n) ∧
    (busRead off n s = .notDecoded ↔ 0x2000 < off) ∧ (busWrite off n v s = .notDecoded ↔ 0x2000 < off)

/-- 20_memory R53, 60_exceptions R148, 30_encoding R79, R84: what a master's step does by the answer to its access. Answered,
it has the access's effect and the master goes on, its variable holding what was read; a bus error changes no state of the
block, and stops the program of the issuing master, at its line, and no other; an access HAUTH does not decode (20_memory
R50) is refused by name. That offset 0x2000 gets a bus error is the model's reading (notes/assumptions/7.md); so are the turn
that empties a variable and an append to one that holds no byte string (notes/assumptions/13.md). -/
def Obligations.BusErrorStopsOnlyItsMaster : Prop :=
  ∀ (s : State) (i : Nat) (m : Master) (line : Nat) (w : Width) (off : Nat) (v : Word) (name : VarName)
    (rest : List (Nat × HostInstr)) (ts : List Turn) (hi : HostInstr), MasterAt s i m line hi rest ts → s.rst = false →
    (hi = .wr w off v ∨ hi = .rd w off name ∨ hi = .rdAppend w off name →
      (off ≤ 0x2000 → Illegal off (widthBytes w) →
        step s = .next { s with schedule := ts, masters := s.masters.set i { m with stopped := some line } }) ∧
      (0x2000 < off → step s = .refused .outsideWindow)) ∧
    (hi = .wr w off v → ∀ t, busWrite off (widthBytes w) v { s with schedule := ts } = .ok t →
      step s = .next { t with masters := s.masters.set i { m with prog := rest } }) ∧
    (hi = .rd w off name → ∀ x t, busRead off (widthBytes w) { s with schedule := ts } = .ok (x, t) →
      ∃ m', GoesOn m rest name (.num x) m' ∧ step s = .next { t with masters := s.masters.set i m' }) ∧
    (hi = .rdAppend w off name → ∀ x t, busRead off (widthBytes w) { s with schedule := ts } = .ok (x, t) →
      ∀ bs, HoldsBytes m name bs →
        ∃ m', GoesOn m rest name (.bytes (bs ++ (List.range (widthBytes w)).map fun k => x.extractLsb' (8 * k) 8)) m' ∧
          step s = .next { t with masters := s.masters.set i m' }) ∧
    (hi = .startBytes name →
      ∃ m', GoesOn m rest name (.bytes []) m' ∧ step s = .next { s with schedule := ts, masters := s.masters.set i m' })

/-- 20_memory R61: no read has a side effect; at most the model's own counter of busy RAM draws moves. -/
def Obligations.ReadsHaveNoSideEffect : Prop :=
  ∀ (off n : Nat) (s t : State) (v : Word), busRead off n s = .ok (v, t) →
    t = { s with draws := t.draws } ∧
    (s.seqState = .idle ∨ off < 0x1000 → t = s ∧ busRead off n t = .ok (v, t))

/-- 10_state R20, R21, R23-R27: the identification and parameter registers, in every state. -/
def Obligations.ParameterRegistersFollowTheVariant : Prop :=
  ∀ s : State,
    busRead 0x000 4 s = .ok (0x4A4F5345, s) ∧ busRead 0x004 4 s = .ok (0x00000001, s) ∧
    busRead 0x014 4 s = .ok (128, s) ∧
    (s.ops.ctrl.variant = 0 → busRead 0x00C 4 s = .ok (256, s) ∧ busRead 0x010 4 s = .ok (256, s) ∧
      busRead 0x018 4 s = .ok (0, s) ∧ busRead 0x01C 4 s = .ok (16, s)) ∧
    (s.ops.ctrl.variant = 1 → busRead 0x00C 4 s = .ok (384, s) ∧ busRead 0x010 4 s = .ok (384, s) ∧
      busRead 0x018 4 s = .ok (1, s) ∧ busRead 0x01C 4 s = .ok (24, s)) ∧
    (s.ops.ctrl.variant = 2 → busRead 0x00C 4 s = .ok (512, s) ∧ busRead 0x010 4 s = .ok (512, s) ∧
      busRead 0x018 4 s = .ok (2, s) ∧ busRead 0x01C 4 s = .ok (32, s)) ∧
    (s.ops.ctrl.variant = 3 → busRead 0x00C 4 s = .ok (0, s) ∧ busRead 0x010 4 s = .ok (0, s) ∧
      busRead 0x018 4 s = .ok (3, s) ∧ busRead 0x01C 4 s = .ok (0, s))

/-- 10_state R19, R22; 20_memory R55: an idle write of CTRL stores bits 1:0, 4, 8 and 16, reads back as them, and changes
nothing else. -/
def Obligations.CtrlStoresItsFieldBits : Prop :=
  ∀ (v : Word) (s : State), s.seqState = .idle →
    ∃ t, busWrite 0x008 4 v s = .ok t ∧ busRead 0x008 4 t = .ok (v &&& 0x00010113, t) ∧
      t = { s with ops := { s.ops with ctrl := t.ops.ctrl } } ∧
      t.ops.ctrl.variant.toNat = v.toNat % 4 ∧ (t.ops.ctrl.alMode = .headerOnly ↔ v.getLsbD 4 = true) ∧
      t.ops.ctrl.aadp = v.getLsbD 8 ∧ t.ops.ctrl.ie = v.getLsbD 16

/-- 10_state R30-R35, 20_memory R55: in every state an operand register reads its own field of State; an idle write of it
stores there the bits of its field, which read back, and changes no other register, no other field and no other state. -/
def Obligations.OperandRegistersStoreTheirFields : Prop :=
  (∀ s : State, ∀ f ∈ operandFields, busRead f.1 4 s = .ok (f.2.2 s.ops, s)) ∧
  ∀ (v : Word) (s : State), s.seqState = .idle → ∀ f ∈ operandFields,
    ∃ t, busWrite f.1 4 v s = .ok t ∧ f.2.2 t.ops = v &&& f.2.1 ∧ busRead f.1 4 t = .ok (v &&& f.2.1, t) ∧
      t = { s with ops := t.ops } ∧ t.ops.ctrl = s.ops.ctrl ∧
      ∀ g ∈ operandFields, g.1 ≠ f.1 →
        g.2.2 t.ops = g.2.2 s.ops ∧ readValue (busRead g.1 4 t) = readValue (busRead g.1 4 s)

/-- 10_state R29: where each field of STATUS stands, and 60_exceptions R137: the number of each error in it. -/
def Obligations.StatusWordHasItsFields : Prop :=
  ∀ s : State, ∃ w, busRead 0x024 4 s = .ok (w, s) ∧
    (w.getLsbD 0 = true ↔ s.seqState ≠ .idle) ∧ w.getLsbD 1 = s.flags.done ∧ w.getLsbD 2 = s.flags.err ∧
    w.getLsbD 3 = s.flags.authOk ∧ w.getLsbD 4 = s.engRdy ∧ w.getLsbD 5 = s.flags.ovr ∧ w.getLsbD 6 = false ∧
    w.getLsbD 7 = false ∧ w.toNat < 4096 ∧
    (s.flags.errCode = .none → w.extractLsb' 8 4 = 0) ∧ (s.flags.errCode = .authFail → w.extractLsb' 8 4 = 1) ∧
    (s.flags.errCode = .invalidKeyLength → w.extractLsb' 8 4 = 2) ∧
    (s.flags.errCode = .engineFailure → w.extractLsb' 8 4 = 3) ∧
    (s.flags.errCode = .engineUnavailable → w.extractLsb' 8 4 = 4) ∧
    (s.flags.errCode = .illegalCmd → w.extractLsb' 8 4 = 5) ∧ (s.flags.errCode = .illegalCfg → w.extractLsb' 8 4 = 6) ∧
    (s.flags.errCode = .rangeError → w.extractLsb' 8 4 = 7)

/-- 10_state R29: a STATUS write clears DONE, ERR and OVR where it has a 1, is accepted in every SEQSTATE, and changes
nothing else. -/
def Obligations.StatusWriteClearsOnes : Prop :=
  ∀ (v : Word) (s : State), busWrite 0x024 4 v s = .ok { s with flags := { s.flags with
    done := s.flags.done && !v.getLsbD 1
    err := s.flags.err && !v.getLsbD 2
    ovr := s.flags.ovr && !v.getLsbD 5 } }

/-- 10_state R46, 60_exceptions R147: IRQ is DONE and IE; what clears it, and that a completion raises it where IE is 1. -/
def Obligations.IrqIsDoneAndEnabled : Prop :=
  ∀ s : State, s.irq = (s.flags.done && s.ops.ctrl.ie) ∧
    (∀ (v : Word) (t : State), busWrite 0x024 4 v s = .ok t → v.getLsbD 1 = true → t.irq = false) ∧
    (∀ (v : Word) (t : State), s.seqState = .idle → busWrite 0x008 4 v s = .ok t → v.getLsbD 16 = false →
      t.irq = false) ∧
    (∀ (w : Word) (t : State), s.seqState = .idle → busWrite 0x020 4 w s = .ok t → t.irq = false) ∧
    (assertReset s).irq = false ∧
    (∀ (i : Instr) (t : State), exec i s = .next t → t.irq = s.ops.ctrl.ie)

/-- 43_control_ops R124, R125: a CMD write is accepted exactly in IDLE, and what issue does; elsewhere it changes nothing
but OVR. -/
def Obligations.IssueIsAcceptedExactlyInIdle : Prop :=
  ∀ (w : Word) (s : State),
    (s.seqState = .idle → ∃ t, busWrite 0x020 4 w s = .ok t ∧
      t = { s with
        pending := w, seqState := .exec, out := .zero
        flags := { s.flags with done := false, err := false, authOk := false, errCode := .none } } ∧
      t.irq = false ∧ t.busy = true) ∧
    (s.seqState ≠ .idle → busWrite 0x020 4 w s = .ok { s with flags := { s.flags with ovr := true } })

/-- 70_reset_and_hazards R162: while busy every legal write but STATUS's is ignored and sets OVR, and changes nothing
else; STATUS's takes effect and does not set it. -/
def Obligations.BusyWritesAreIgnored : Prop :=
  ∀ (off n : Nat) (v : Word) (s : State), s.seqState ≠ .idle → ¬ Illegal off n →
    (off ≠ 0x024 → busWrite off n v s = .ok { s with flags := { s.flags with ovr := true } }) ∧
    (off = 0x024 → busWrite off n v s = .ok { s with flags := { s.flags with
      done := s.flags.done && !v.getLsbD 1
      err := s.flags.err && !v.getLsbD 2
      ovr := s.flags.ovr && !v.getLsbD 5 } })

/-- 20_memory R60, R55: an idle write of a read-only register or window does nothing; the write-only locations read 0; and
in every state OUT_LEN, TAGOUTLEN and TAGOUTW read the results (10_state R36, R37, R41), in the lanes of 20_memory R56. -/
def Obligations.ReadOnlyAndWriteOnlyLocations : Prop :=
  (∀ (v : Word) (s : State), s.seqState = .idle →
    (∀ off ∈ [0x000, 0x004, 0x00C, 0x010, 0x014, 0x018, 0x01C, 0x04C, 0x050], busWrite off 4 v s = .ok s) ∧
    (∀ i n, Natural i n 32 → busWrite (0x1C0 + i) n v s = .ok s)) ∧
  (∀ s : State, busRead 0x020 4 s = .ok (0, s) ∧ ∀ i n, Natural i n 64 → busRead (0x100 + i) n s = .ok (0, s)) ∧
  (∀ s : State, busRead 0x04C 4 s = .ok (s.out.outLen.setWidth 32, s) ∧
    busRead 0x050 4 s = .ok (s.out.tagOutLen.setWidth 32, s) ∧
    ∀ i n, Natural i n 32 → ∃ v, busRead (0x1C0 + i) n s = .ok (v, s) ∧ v.toNat < 2 ^ (8 * n) ∧
      ∀ k, k < n → s.out.tagOutw[i + k]? = some (v.extractLsb' (8 * k) 8))

/-- 10_state R42, 20_memory R56, R67: an idle RAM write stores its bytes in little-endian lanes, leaves every other byte
and all other state alone, and reads back. -/
def Obligations.RamReadsBackWhatWasWritten : Prop :=
  ∀ (i n : Nat) (v : Word) (s : State), s.seqState = .idle → Memory.wf s.ram → Natural i n 4096 →
    ∃ t, busWrite (0x1000 + i) n v s = .ok t ∧ t = { s with ram := t.ram } ∧ Memory.wf t.ram ∧
      (∀ k, k < n → Memory.read t.ram (i + k) = v.extractLsb' (8 * k) 8) ∧
      (∀ a, a < i ∨ i + n ≤ a → Memory.read t.ram a = Memory.read s.ram a) ∧
      busRead (0x1000 + i) n t = .ok ((v.setWidth (8 * n)).setWidth 32, t)

/-- 10_state R38-R40, 20_memory R56: an idle write of CEKW, IVW or TAGINW stores its bytes in little-endian lanes and
changes nothing else; IVW and TAGINW read back, CEKW reads 0. -/
def Obligations.WindowsStoreTheirBytes : Prop :=
  ∀ (i n : Nat) (v : Word) (s : State), s.seqState = .idle →
    (Natural i n 64 → ∃ t, busWrite (0x100 + i) n v s = .ok t ∧
      t = { s with win := { s.win with cekw := t.win.cekw } } ∧
      (∀ k, k < n → t.win.cekw[i + k]? = some (v.extractLsb' (8 * k) 8)) ∧
      (∀ j, j < i ∨ i + n ≤ j → t.win.cekw[j]? = s.win.cekw[j]?) ∧ busRead (0x100 + i) n t = .ok (0, t)) ∧
    (Natural i n 16 → ∃ t, busWrite (0x140 + i) n v s = .ok t ∧
      t = { s with win := { s.win with ivw := t.win.ivw } } ∧
      (∀ k, k < n → t.win.ivw[i + k]? = some (v.extractLsb' (8 * k) 8)) ∧
      (∀ j, j < i ∨ i + n ≤ j → t.win.ivw[j]? = s.win.ivw[j]?) ∧
      busRead (0x140 + i) n t = .ok ((v.setWidth (8 * n)).setWidth 32, t)) ∧
    (Natural i n 32 → ∃ t, busWrite (0x180 + i) n v s = .ok t ∧
      t = { s with win := { s.win with tagInw := t.win.tagInw } } ∧
      (∀ k, k < n → t.win.tagInw[i + k]? = some (v.extractLsb' (8 * k) 8)) ∧
      (∀ j, j < i ∨ i + n ≤ j → t.win.tagInw[j]? = s.win.tagInw[j]?) ∧
      busRead (0x180 + i) n t = .ok ((v.setWidth (8 * n)).setWidth 32, t))

/-- 70_reset_and_hazards R163: a RAM read while busy returns free values, fresh for each read. -/
def Obligations.BusyRamReadsDrawFreshBytes : Prop :=
  ∀ (i n : Nat) (s : State), s.seqState ≠ .idle → Natural i n 4096 →
    ∃ v, busRead (0x1000 + i) n s = .ok (v, { s with draws := s.draws + n }) ∧
      ∀ k, k < n → v.extractLsb' (8 * k) 8 = Config.freeByte (s.draws + k)

/-- 10_state R38, 60_exceptions R150: no read depends on CEKW. -/
def Obligations.CekIsNotReadable : Prop :=
  ∀ (off n : Nat) (s : State) (w : Vector Byte 64),
    readValue (busRead off n { s with win := { s.win with cekw := w } }) = readValue (busRead off n s)

/-! ### The host notation and timing -/

/-- 30_encoding R80: `poll` reads STATUS and stays while BUSY is 1; it changes nothing but its own master. -/
def Obligations.PollWaitsForNotBusy : Prop :=
  ∀ (s : State) (i : Nat) (m : Master) (line : Nat) (rest : List (Nat × HostInstr)) (ts : List Turn),
    MasterAt s i m line .poll rest ts → s.rst = false →
    step s = .next { s with
      schedule := ts
      masters := s.masters.set i { m with
        prog := if s.seqState = .idle then rest else m.prog
        vars := setVar "s" (.num (statusWord s)) m.vars } }

/-- 30_encoding R83: the writes `wrbytes` expands to leave its bytes in the RAM in increasing offset order, and change
nothing else. -/
def Obligations.WrbytesWritesItsBytes : Prop :=
  ∀ (o : Nat) (bs : Bytes) (s : State), s.seqState = .idle → o % 4 = 0 → o + bs.length ≤ 4096 →
    performWrites (wrbytesInstrs (0x1000 + o) bs) s = some { s with ram := Memory.writeBytes s.ram o bs }

/-- 60_exceptions R138, 70_reset_and_hazards R170: the outcome of the checks made before any data is read depends on no
window byte, no RAM byte, no flag and not on TAGINLEN; and it is that outcome by which a command completes: with its error
where there is one, and else with no error but AUTH_FAIL and ENGINE_FAILURE. -/
def Obligations.PrecheckDependsOnNoSecret : Prop :=
  (∀ (i : Instr) (s s' : State), s'.ops = { s.ops with tagInLen := s'.ops.tagInLen } → s'.engRdy = s.engRdy →
    checkOutcome i s' = checkOutcome i s) ∧
  ∀ (i : Instr) (s : State), ∃ t, exec i s = .next t ∧
    (checkOutcome i s ≠ .none → t.flags.errCode = checkOutcome i s) ∧
    (checkOutcome i s = .none → t.flags.errCode ∈ [.none, .authFail, .engineFailure])
end

