-- ==== Sys2Proof/Laws/Memory.lean ====
section
/-! SUPPORT. The laws of the message RAM and of the byte windows: read after write, what a write leaves alone, and that
every operation keeps the canonical form. -/

namespace Sys2Proof.Machine

/-! ### One byte -/

theorem Memory.wf_nil : Memory.wf [] := by simp [Memory.wf]

/-- An offset below every listed one reads as unlisted. -/
theorem Memory.read_eq_unlisted {m : Memory} {a : Nat} (h : ∀ c ∈ m, a < c.1) : Memory.read m a = Memory.unlisted := by
  induction m with
  | nil => rfl
  | cons c m ih =>
    have hc := h c (by simp)
    simp only [Memory.read, if_neg (Nat.ne_of_gt hc)]
    exact ih fun d hd => h d (by simp [hd])

/-- Where a write's entries come from. -/
theorem Memory.mem_write {m : Memory} {a : Nat} {v : Byte} {c : Host.Cell} (h : c ∈ Memory.write m a v) :
    c ∈ m ∨ (c = (a, v) ∧ v ≠ Memory.unlisted) := by
  induction m with
  | nil => by_cases hv : v = Memory.unlisted <;> simp_all [Memory.write]
  | cons d m ih =>
    obtain ⟨k, b⟩ := d
    simp only [Memory.write] at h
    split at h
    · split at h <;> simp_all
      tauto
    · split at h
      · split at h <;> simp_all
        tauto
      · rcases List.mem_cons.1 h with h | h
        · simp [h]
        · rcases ih h with h | h <;> simp [h]

theorem Memory.read_write_same {m : Memory} (hm : m.Pairwise fun x y => x.1 < y.1) (a : Nat) (v : Byte) :
    Memory.read (Memory.write m a v) a = v := by
  induction m with
  | nil => by_cases hv : v = Memory.unlisted <;> simp [Memory.write, Memory.read, hv]
  | cons d m ih =>
    obtain ⟨k, b⟩ := d
    have ⟨hk, hm'⟩ := List.pairwise_cons.1 hm
    simp only [Memory.write]
    split
    · rename_i hlt
      split
      · rename_i hv
        rw [hv]
        refine Memory.read_eq_unlisted fun c hc => ?_
        rcases List.mem_cons.1 hc with rfl | hc
        · exact hlt
        · exact Nat.lt_trans hlt (hk c hc)
      · simp [Memory.read]
    · split
      · rename_i heq
        split
        · rename_i hv
          subst heq
          rw [hv]
          exact Memory.read_eq_unlisted fun c hc => hk c hc
        · simp [Memory.read]
      · rename_i h1 h2
        simp only [Memory.read, if_neg (Ne.symm h2)]
        exact ih hm'

theorem Memory.read_write_other {m : Memory} {a b : Nat} (v : Byte) (h : b ≠ a) :
    Memory.read (Memory.write m a v) b = Memory.read m b := by
  induction m with
  | nil => by_cases hv : v = Memory.unlisted <;> simp [Memory.write, Memory.read, hv, Ne.symm h]
  | cons d m ih =>
    obtain ⟨k, x⟩ := d
    simp only [Memory.write]
    split
    · split
      · rfl
      · simp [Memory.read, Ne.symm h]
    · split
      · rename_i heq
        subst heq
        split <;> simp [Memory.read, Ne.symm h]
      · simp only [Memory.read, ih]

/-- A write inside the RAM keeps the canonical form. -/
theorem Memory.write_wf {m : Memory} (hm : Memory.wf m) {a : Nat} (ha : a < Config.msgRamBytes) (v : Byte) :
    Memory.wf (Memory.write m a v) := by
  obtain ⟨hs, hb⟩ := hm
  refine ⟨?_, fun c hc => ?_⟩
  · clear hb
    induction m with
    | nil => by_cases hv : v = Memory.unlisted <;> simp [Memory.write, hv]
    | cons d m ih =>
      obtain ⟨k, x⟩ := d
      have ⟨hk, hs'⟩ := List.pairwise_cons.1 hs
      simp only [Memory.write]
      split
      · rename_i hlt
        split
        · exact hs
        · refine List.pairwise_cons.2 ⟨fun c hc => ?_, hs⟩
          rcases List.mem_cons.1 hc with rfl | hc
          · exact hlt
          · exact Nat.lt_trans hlt (hk c hc)
      · split
        · rename_i heq
          subst heq
          split
          · exact hs'
          · exact List.pairwise_cons.2 ⟨hk, hs'⟩
        · rename_i h1 h2
          refine List.pairwise_cons.2 ⟨fun c hc => ?_, ih hs'⟩
          rcases Memory.mem_write hc with hc | ⟨rfl, -⟩
          · exact hk c hc
          · show k < a
            omega
  · rcases Memory.mem_write hc with hc | ⟨rfl, hv⟩
    · exact hb c hc
    · exact ⟨ha, hv⟩

/-- Two RAMs in canonical form that read alike are the same data. -/
theorem Memory.ext_of_sorted {m n : Memory} (hm : Memory.wf m) (hn : Memory.wf n)
    (h : ∀ a, Memory.read m a = Memory.read n a) : m = n := by
  induction m generalizing n with
  | nil =>
    cases n with
    | nil => rfl
    | cons d n =>
      have hd := (hn.2 d (by simp)).2
      have := h d.1
      simp only [Memory.read, if_true] at this
      exact absurd this.symm hd
  | cons c m ih =>
    obtain ⟨k, x⟩ := c
    obtain ⟨hs, hb⟩ := hm
    have ⟨hk, hs'⟩ := List.pairwise_cons.1 hs
    cases n with
    | nil =>
      have := h k
      simp only [Memory.read, if_true] at this
      exact absurd this (hb (k, x) (by simp)).2
    | cons d n =>
      obtain ⟨l, y⟩ := d
      obtain ⟨ns, nb⟩ := hn
      have ⟨nk, ns'⟩ := List.pairwise_cons.1 ns
      have hkl : k = l := by
        rcases Nat.lt_trichotomy k l with hlt | heq | hlt
        · have hu := h k
          rw [Memory.read_eq_unlisted (m := (l, y) :: n)] at hu
          · simp only [Memory.read, if_true] at hu
            exact absurd hu (hb (k, x) (by simp)).2
          · intro e he
            rcases List.mem_cons.1 he with rfl | he
            · exact hlt
            · exact Nat.lt_trans hlt (nk e he)
        · exact heq
        · have hu := h l
          rw [Memory.read_eq_unlisted (m := (k, x) :: m)] at hu
          · simp only [Memory.read, if_true] at hu
            exact absurd hu.symm (nb (l, y) (by simp)).2
          · intro e he
            rcases List.mem_cons.1 he with rfl | he
            · exact hlt
            · exact Nat.lt_trans hlt (hk e he)
      subst hkl
      have hxy : x = y := by simpa [Memory.read] using h k
      subst hxy
      congr 1
      refine ih ⟨hs', fun e he => hb e (by simp [he])⟩ ⟨ns', fun e he => nb e (by simp [he])⟩ fun a => ?_
      by_cases hak : k = a
      · subst hak
        rw [Memory.read_eq_unlisted fun e he => hk e he, Memory.read_eq_unlisted fun e he => nk e he]
      · simpa [Memory.read, hak] using h a

/-! ### Byte strings -/

@[simp] theorem Memory.length_readBytes (m : Memory) (o n : Nat) : (Memory.readBytes m o n).length = n := by
  simp [Memory.readBytes]

theorem Memory.getElem_readBytes (m : Memory) (o n i : Nat) (h : i < (Memory.readBytes m o n).length) :
    (Memory.readBytes m o n)[i] = Memory.read m (o + i) := by
  simp [Memory.readBytes]

theorem Memory.writeBytes_wf {m : Memory} (hm : Memory.wf m) {o : Nat} {bs : Bytes}
    (h : o + bs.length ≤ Config.msgRamBytes) : Memory.wf (Memory.writeBytes m o bs) := by
  induction bs generalizing m o with
  | nil => exact hm
  | cons b bs ih =>
    simp only [List.length_cons] at h
    exact ih (Memory.write_wf hm (by omega) b) (by omega)

/-- What `writeBytes` leaves alone. -/
theorem Memory.read_writeBytes_other {m : Memory} {o a : Nat} {bs : Bytes} (h : a < o ∨ o + bs.length ≤ a) :
    Memory.read (Memory.writeBytes m o bs) a = Memory.read m a := by
  induction bs generalizing m o with
  | nil => rfl
  | cons b bs ih =>
    simp only [List.length_cons] at h
    rw [Memory.writeBytes, ih (by omega), Memory.read_write_other b (by omega)]

/-- What `writeBytes` stores. -/
theorem Memory.read_writeBytes_same {m : Memory} (hm : Memory.wf m) {o i : Nat} {bs : Bytes}
    (hb : o + bs.length ≤ Config.msgRamBytes) (hi : i < bs.length) :
    Memory.read (Memory.writeBytes m o bs) (o + i) = bs[i] := by
  induction bs generalizing m o i with
  | nil => simp at hi
  | cons b bs ih =>
    simp only [List.length_cons] at hb hi
    have hw := Memory.write_wf hm (a := o) (by omega) b
    cases i with
    | zero =>
      rw [Memory.writeBytes, Memory.read_writeBytes_other (by omega)]
      simpa using Memory.read_write_same hm.1 o b
    | succ j =>
      have := ih hw (o := o + 1) (i := j) (by omega) (by omega)
      rw [Memory.writeBytes, show o + (j + 1) = o + 1 + j by omega, this]
      rfl

/-- Reading back what `writeBytes` stored. -/
theorem Memory.readBytes_writeBytes {m : Memory} (hm : Memory.wf m) {o : Nat} {bs : Bytes}
    (hb : o + bs.length ≤ Config.msgRamBytes) :
    Memory.readBytes (Memory.writeBytes m o bs) o bs.length = bs := by
  refine List.ext_getElem (by simp) fun i h1 h2 => ?_
  rw [Memory.getElem_readBytes, Memory.read_writeBytes_same hm hb h2]

/-- The RAM after a commit keeps the canonical form where the output region is in the RAM (43_control_ops R129). -/
theorem Result.ramAfter_wf {r : Result} {m : Memory} (hm : Memory.wf m)
    (h : ∀ o bs, r.ramWrite = some (o, bs) → o + bs.length ≤ Config.msgRamBytes) : Memory.wf (r.ramAfter m) := by
  have hbase : Memory.wf (if r.zeroRam then [] else m) := by
    split
    · exact Memory.wf_nil
    · exact hm
  unfold Result.ramAfter
  split
  · exact hbase
  · rename_i o bs hw
    exact Memory.writeBytes_wf hbase (h o bs hw)

/-! ### Windows -/

@[simp] theorem windowOf_toList (n : Nat) (bs : Bytes) : (windowOf n bs).toList = (bs ++ zeros n).take n := by
  simp [windowOf, Vector.toList]

/-- A window holds a byte string that fills it. -/
theorem windowOf_toList_of_length {n : Nat} {bs : Bytes} (h : bs.length ≤ n) :
    (windowOf n bs).toList = bs ++ zeros (n - bs.length) := by
  rw [windowOf_toList, List.take_append, List.take_of_length_le h]
  simp [zeros]

/-- Storing outside a window's index leaves the byte there. -/
theorem storeWindow_other {n : Nat} (w : Vector Byte n) {i j : Nat} {bs : Bytes} (h : j < i ∨ i + bs.length ≤ j) :
    (storeWindow w i bs)[j]? = w[j]? := by
  induction bs generalizing w i with
  | nil => rfl
  | cons b bs ih =>
    simp only [List.length_cons] at h
    rw [storeWindow, ih _ (by omega)]
    rw [Vector.getElem?_setIfInBounds]
    simp [show i ≠ j by omega]

/-- What storing puts into a window. -/
theorem storeWindow_same {n : Nat} (w : Vector Byte n) {i j : Nat} {bs : Bytes} (hj : j < bs.length)
    (hn : i + bs.length ≤ n) : (storeWindow w i bs)[i + j]? = some bs[j] := by
  induction bs generalizing w i j with
  | nil => simp at hj
  | cons b bs ih =>
    simp only [List.length_cons] at hj hn
    cases j with
    | zero =>
      rw [storeWindow, storeWindow_other _ (by omega), Vector.getElem?_setIfInBounds]
      simp [show i < n by omega]
    | succ k =>
      rw [storeWindow, show i + (k + 1) = i + 1 + k by omega, ih _ (by omega) (by omega)]
      rfl

theorem getElem?_toList_eq {n : Nat} (w : Vector Byte n) (i : Nat) : w.toList[i]? = w[i]? := by
  simp

/-- Reading back what was stored into a window (20_memory R67). -/
theorem loadWindow_storeWindow {n : Nat} (w : Vector Byte n) {i : Nat} {bs : Bytes} (h : i + bs.length ≤ n) :
    loadWindow (storeWindow w i bs) i bs.length = bs := by
  refine List.ext_getElem? fun j => ?_
  simp only [loadWindow, List.getElem?_take, List.getElem?_drop]
  split
  · rename_i hj
    rw [getElem?_toList_eq, storeWindow_same w hj h]
    simp [hj]
  · rename_i hj
    simp [Nat.le_of_not_lt hj]

end Sys2Proof.Machine
end

