-- ==== Sys2Proof/Laws/State.lean ====
section
/-! SUPPORT. One lemma per field per named update, so that no later proof unfolds a record update. -/

namespace Sys2Proof.Machine

variable (s : State)

/-! ### issue (43_control_ops R125) -/

@[simp] theorem issue_ops (w : Word) : (issue w s).ops = s.ops := rfl
@[simp] theorem issue_win (w : Word) : (issue w s).win = s.win := rfl
@[simp] theorem issue_out (w : Word) : (issue w s).out = .zero := rfl
@[simp] theorem issue_flags (w : Word) : (issue w s).flags = s.flags.atIssue := rfl
@[simp] theorem issue_ram (w : Word) : (issue w s).ram = s.ram := rfl
@[simp] theorem issue_seqState (w : Word) : (issue w s).seqState = .exec := rfl
@[simp] theorem issue_pending (w : Word) : (issue w s).pending = w := rfl
@[simp] theorem issue_engRdy (w : Word) : (issue w s).engRdy = s.engRdy := rfl
@[simp] theorem issue_rst (w : Word) : (issue w s).rst = s.rst := rfl
@[simp] theorem issue_enginePresent (w : Word) : (issue w s).enginePresent = s.enginePresent := rfl
@[simp] theorem issue_draws (w : Word) : (issue w s).draws = s.draws := rfl
@[simp] theorem issue_masters (w : Word) : (issue w s).masters = s.masters := rfl
@[simp] theorem issue_schedule (w : Word) : (issue w s).schedule = s.schedule := rfl

/-! ### commit (43_control_ops R129) -/

@[simp] theorem commit_ops (r : Result) : (commit r s).ops = s.ops := rfl
@[simp] theorem commit_win (r : Result) : (commit r s).win = s.win := rfl
@[simp] theorem commit_out (r : Result) : (commit r s).out = { outLen := r.outLen, tagOutLen := r.tagOutLen, tagOutw := r.tagOut } := rfl
@[simp] theorem commit_flags (r : Result) : (commit r s).flags = s.flags.atCommit r.code r.authOk := rfl
@[simp] theorem commit_ram (r : Result) : (commit r s).ram = r.ramAfter s.ram := rfl
@[simp] theorem commit_seqState (r : Result) : (commit r s).seqState = s.seqState := rfl
@[simp] theorem commit_pending (r : Result) : (commit r s).pending = s.pending := rfl
@[simp] theorem commit_engRdy (r : Result) : (commit r s).engRdy = s.engRdy := rfl
@[simp] theorem commit_rst (r : Result) : (commit r s).rst = s.rst := rfl
@[simp] theorem commit_enginePresent (r : Result) : (commit r s).enginePresent = s.enginePresent := rfl
@[simp] theorem commit_draws (r : Result) : (commit r s).draws = s.draws := rfl
@[simp] theorem commit_masters (r : Result) : (commit r s).masters = s.masters := rfl
@[simp] theorem commit_schedule (r : Result) : (commit r s).schedule = s.schedule := rfl

/-! ### transient clearing (43_control_ops R130) -/

@[simp] theorem clearTransient_ops : (clearTransient s).ops = s.ops := rfl
@[simp] theorem clearTransient_win : (clearTransient s).win = .zero := rfl
@[simp] theorem clearTransient_out : (clearTransient s).out = s.out := rfl
@[simp] theorem clearTransient_flags : (clearTransient s).flags = s.flags := rfl
@[simp] theorem clearTransient_ram : (clearTransient s).ram = s.ram := rfl
@[simp] theorem clearTransient_seqState : (clearTransient s).seqState = s.seqState := rfl
@[simp] theorem clearTransient_pending : (clearTransient s).pending = s.pending := rfl
@[simp] theorem clearTransient_engRdy : (clearTransient s).engRdy = s.engRdy := rfl
@[simp] theorem clearTransient_rst : (clearTransient s).rst = s.rst := rfl
@[simp] theorem clearTransient_enginePresent : (clearTransient s).enginePresent = s.enginePresent := rfl
@[simp] theorem clearTransient_draws : (clearTransient s).draws = s.draws := rfl
@[simp] theorem clearTransient_masters : (clearTransient s).masters = s.masters := rfl
@[simp] theorem clearTransient_schedule : (clearTransient s).schedule = s.schedule := rfl

/-! ### the end of a completion step (43_control_ops R128) -/

@[simp] theorem finish_ops : (finish s).ops = s.ops := rfl
@[simp] theorem finish_win : (finish s).win = s.win := rfl
@[simp] theorem finish_out : (finish s).out = s.out := rfl
@[simp] theorem finish_flags : (finish s).flags = { s.flags with done := true } := rfl
@[simp] theorem finish_ram : (finish s).ram = s.ram := rfl
@[simp] theorem finish_seqState : (finish s).seqState = .idle := rfl
@[simp] theorem finish_pending : (finish s).pending = s.pending := rfl
@[simp] theorem finish_engRdy : (finish s).engRdy = s.engRdy := rfl
@[simp] theorem finish_rst : (finish s).rst = s.rst := rfl
@[simp] theorem finish_enginePresent : (finish s).enginePresent = s.enginePresent := rfl
@[simp] theorem finish_draws : (finish s).draws = s.draws := rfl
@[simp] theorem finish_masters : (finish s).masters = s.masters := rfl
@[simp] theorem finish_schedule : (finish s).schedule = s.schedule := rfl

/-! ### NOP's completion step -/

@[simp] theorem completeKeeping_ops (r : Result) : (completeKeeping r s).ops = s.ops := rfl
@[simp] theorem completeKeeping_win (r : Result) : (completeKeeping r s).win = s.win := rfl
@[simp] theorem completeKeeping_out (r : Result) : (completeKeeping r s).out = { outLen := r.outLen, tagOutLen := r.tagOutLen, tagOutw := r.tagOut } := rfl
@[simp] theorem completeKeeping_flags (r : Result) : (completeKeeping r s).flags = { s.flags.atCommit r.code r.authOk with done := true } := rfl
@[simp] theorem completeKeeping_ram (r : Result) : (completeKeeping r s).ram = r.ramAfter s.ram := rfl
@[simp] theorem completeKeeping_seqState (r : Result) : (completeKeeping r s).seqState = .idle := rfl
@[simp] theorem completeKeeping_pending (r : Result) : (completeKeeping r s).pending = s.pending := rfl
@[simp] theorem completeKeeping_engRdy (r : Result) : (completeKeeping r s).engRdy = s.engRdy := rfl
@[simp] theorem completeKeeping_rst (r : Result) : (completeKeeping r s).rst = s.rst := rfl
@[simp] theorem completeKeeping_enginePresent (r : Result) : (completeKeeping r s).enginePresent = s.enginePresent := rfl
@[simp] theorem completeKeeping_draws (r : Result) : (completeKeeping r s).draws = s.draws := rfl
@[simp] theorem completeKeeping_masters (r : Result) : (completeKeeping r s).masters = s.masters := rfl
@[simp] theorem completeKeeping_schedule (r : Result) : (completeKeeping r s).schedule = s.schedule := rfl

/-! ### a completion step -/

@[simp] theorem complete_ops (r : Result) : (complete r s).ops = s.ops := rfl
@[simp] theorem complete_win (r : Result) : (complete r s).win = .zero := rfl
@[simp] theorem complete_out (r : Result) : (complete r s).out = { outLen := r.outLen, tagOutLen := r.tagOutLen, tagOutw := r.tagOut } := rfl
@[simp] theorem complete_flags (r : Result) : (complete r s).flags = { s.flags.atCommit r.code r.authOk with done := true } := rfl
@[simp] theorem complete_ram (r : Result) : (complete r s).ram = r.ramAfter s.ram := rfl
@[simp] theorem complete_seqState (r : Result) : (complete r s).seqState = .idle := rfl
@[simp] theorem complete_pending (r : Result) : (complete r s).pending = s.pending := rfl
@[simp] theorem complete_engRdy (r : Result) : (complete r s).engRdy = s.engRdy := rfl
@[simp] theorem complete_rst (r : Result) : (complete r s).rst = s.rst := rfl
@[simp] theorem complete_enginePresent (r : Result) : (complete r s).enginePresent = s.enginePresent := rfl
@[simp] theorem complete_draws (r : Result) : (complete r s).draws = s.draws := rfl
@[simp] theorem complete_masters (r : Result) : (complete r s).masters = s.masters := rfl
@[simp] theorem complete_schedule (r : Result) : (complete r s).schedule = s.schedule := rfl

/-! ### a STATUS write (10_state R29) -/

@[simp] theorem writeStatus_ops (v : Word) : (writeStatus v s).ops = s.ops := rfl
@[simp] theorem writeStatus_win (v : Word) : (writeStatus v s).win = s.win := rfl
@[simp] theorem writeStatus_out (v : Word) : (writeStatus v s).out = s.out := rfl
@[simp] theorem writeStatus_flags (v : Word) : (writeStatus v s).flags = s.flags.w1c v := rfl
@[simp] theorem writeStatus_ram (v : Word) : (writeStatus v s).ram = s.ram := rfl
@[simp] theorem writeStatus_seqState (v : Word) : (writeStatus v s).seqState = s.seqState := rfl
@[simp] theorem writeStatus_pending (v : Word) : (writeStatus v s).pending = s.pending := rfl
@[simp] theorem writeStatus_engRdy (v : Word) : (writeStatus v s).engRdy = s.engRdy := rfl
@[simp] theorem writeStatus_rst (v : Word) : (writeStatus v s).rst = s.rst := rfl
@[simp] theorem writeStatus_enginePresent (v : Word) : (writeStatus v s).enginePresent = s.enginePresent := rfl
@[simp] theorem writeStatus_draws (v : Word) : (writeStatus v s).draws = s.draws := rfl
@[simp] theorem writeStatus_masters (v : Word) : (writeStatus v s).masters = s.masters := rfl
@[simp] theorem writeStatus_schedule (v : Word) : (writeStatus v s).schedule = s.schedule := rfl

/-! ### an ignored write (70_reset_and_hazards R162) -/

@[simp] theorem ignoreWrite_ops : (ignoreWrite s).ops = s.ops := rfl
@[simp] theorem ignoreWrite_win : (ignoreWrite s).win = s.win := rfl
@[simp] theorem ignoreWrite_out : (ignoreWrite s).out = s.out := rfl
@[simp] theorem ignoreWrite_flags : (ignoreWrite s).flags = s.flags.overrun := rfl
@[simp] theorem ignoreWrite_ram : (ignoreWrite s).ram = s.ram := rfl
@[simp] theorem ignoreWrite_seqState : (ignoreWrite s).seqState = s.seqState := rfl
@[simp] theorem ignoreWrite_pending : (ignoreWrite s).pending = s.pending := rfl
@[simp] theorem ignoreWrite_engRdy : (ignoreWrite s).engRdy = s.engRdy := rfl
@[simp] theorem ignoreWrite_rst : (ignoreWrite s).rst = s.rst := rfl
@[simp] theorem ignoreWrite_enginePresent : (ignoreWrite s).enginePresent = s.enginePresent := rfl
@[simp] theorem ignoreWrite_draws : (ignoreWrite s).draws = s.draws := rfl
@[simp] theorem ignoreWrite_masters : (ignoreWrite s).masters = s.masters := rfl
@[simp] theorem ignoreWrite_schedule : (ignoreWrite s).schedule = s.schedule := rfl

/-! ### RESET asserted (70_reset_and_hazards R156) -/

@[simp] theorem assertReset_ops : (assertReset s).ops = .reset := rfl
@[simp] theorem assertReset_win : (assertReset s).win = .zero := rfl
@[simp] theorem assertReset_out : (assertReset s).out = .zero := rfl
@[simp] theorem assertReset_flags : (assertReset s).flags = .reset := rfl
@[simp] theorem assertReset_ram : (assertReset s).ram = [] := rfl
@[simp] theorem assertReset_seqState : (assertReset s).seqState = .init := rfl
@[simp] theorem assertReset_pending : (assertReset s).pending = 0 := rfl
@[simp] theorem assertReset_engRdy : (assertReset s).engRdy = s.enginePresent := rfl
@[simp] theorem assertReset_rst : (assertReset s).rst = true := rfl
@[simp] theorem assertReset_enginePresent : (assertReset s).enginePresent = s.enginePresent := rfl
@[simp] theorem assertReset_draws : (assertReset s).draws = s.draws := rfl
@[simp] theorem assertReset_masters : (assertReset s).masters = s.masters := rfl
@[simp] theorem assertReset_schedule : (assertReset s).schedule = s.schedule := rfl

/-! ### a master's own change (20_memory R66) -/

@[simp] theorem State.setMaster_ops (i : Nat) (m : Master) : (State.setMaster i m s).ops = s.ops := rfl
@[simp] theorem State.setMaster_win (i : Nat) (m : Master) : (State.setMaster i m s).win = s.win := rfl
@[simp] theorem State.setMaster_out (i : Nat) (m : Master) : (State.setMaster i m s).out = s.out := rfl
@[simp] theorem State.setMaster_flags (i : Nat) (m : Master) : (State.setMaster i m s).flags = s.flags := rfl
@[simp] theorem State.setMaster_ram (i : Nat) (m : Master) : (State.setMaster i m s).ram = s.ram := rfl
@[simp] theorem State.setMaster_seqState (i : Nat) (m : Master) : (State.setMaster i m s).seqState = s.seqState := rfl
@[simp] theorem State.setMaster_pending (i : Nat) (m : Master) : (State.setMaster i m s).pending = s.pending := rfl
@[simp] theorem State.setMaster_engRdy (i : Nat) (m : Master) : (State.setMaster i m s).engRdy = s.engRdy := rfl
@[simp] theorem State.setMaster_rst (i : Nat) (m : Master) : (State.setMaster i m s).rst = s.rst := rfl
@[simp] theorem State.setMaster_enginePresent (i : Nat) (m : Master) : (State.setMaster i m s).enginePresent = s.enginePresent := rfl
@[simp] theorem State.setMaster_draws (i : Nat) (m : Master) : (State.setMaster i m s).draws = s.draws := rfl
@[simp] theorem State.setMaster_masters (i : Nat) (m : Master) : (State.setMaster i m s).masters = s.masters.set i m := rfl
@[simp] theorem State.setMaster_schedule (i : Nat) (m : Master) : (State.setMaster i m s).schedule = s.schedule := rfl

/-! ### the end of INIT (70_reset_and_hazards R159) -/

@[simp] theorem endInit_ops : (endInit s).ops = s.ops := rfl
@[simp] theorem endInit_win : (endInit s).win = .zero := rfl
@[simp] theorem endInit_out : (endInit s).out = { s.out with tagOutw := Vector.replicate 32 0 } := rfl
@[simp] theorem endInit_flags : (endInit s).flags = s.flags := rfl
@[simp] theorem endInit_ram : (endInit s).ram = [] := rfl
@[simp] theorem endInit_seqState : (endInit s).seqState = .idle := rfl
@[simp] theorem endInit_pending : (endInit s).pending = s.pending := rfl
@[simp] theorem endInit_engRdy : (endInit s).engRdy = s.engRdy := rfl
@[simp] theorem endInit_rst : (endInit s).rst = s.rst := rfl
@[simp] theorem endInit_enginePresent : (endInit s).enginePresent = s.enginePresent := rfl
@[simp] theorem endInit_draws : (endInit s).draws = s.draws := rfl
@[simp] theorem endInit_masters : (endInit s).masters = s.masters := rfl
@[simp] theorem endInit_schedule : (endInit s).schedule = s.schedule := rfl

/-! ### the flags -/

variable (f : Flags)

@[simp] theorem Flags.w1c_done (v : Word) : (f.w1c v).done = (f.done && !v.getLsbD 1) := rfl
@[simp] theorem Flags.w1c_err (v : Word) : (f.w1c v).err = (f.err && !v.getLsbD 2) := rfl
@[simp] theorem Flags.w1c_authOk (v : Word) : (f.w1c v).authOk = f.authOk := rfl
@[simp] theorem Flags.w1c_ovr (v : Word) : (f.w1c v).ovr = (f.ovr && !v.getLsbD 5) := rfl
@[simp] theorem Flags.w1c_errCode (v : Word) : (f.w1c v).errCode = f.errCode := rfl
@[simp] theorem Flags.overrun_done : (f.overrun).done = f.done := rfl
@[simp] theorem Flags.overrun_err : (f.overrun).err = f.err := rfl
@[simp] theorem Flags.overrun_authOk : (f.overrun).authOk = f.authOk := rfl
@[simp] theorem Flags.overrun_ovr : (f.overrun).ovr = true := rfl
@[simp] theorem Flags.overrun_errCode : (f.overrun).errCode = f.errCode := rfl
@[simp] theorem Flags.atIssue_done : (f.atIssue).done = false := rfl
@[simp] theorem Flags.atIssue_err : (f.atIssue).err = false := rfl
@[simp] theorem Flags.atIssue_authOk : (f.atIssue).authOk = false := rfl
@[simp] theorem Flags.atIssue_ovr : (f.atIssue).ovr = f.ovr := rfl
@[simp] theorem Flags.atIssue_errCode : (f.atIssue).errCode = .none := rfl
@[simp] theorem Flags.atCommit_done (c : ErrCode) (a : Bool) : (f.atCommit c a).done = f.done := rfl
@[simp] theorem Flags.atCommit_err (c : ErrCode) (a : Bool) : (f.atCommit c a).err = (c != .none) := rfl
@[simp] theorem Flags.atCommit_authOk (c : ErrCode) (a : Bool) : (f.atCommit c a).authOk = a := rfl
@[simp] theorem Flags.atCommit_ovr (c : ErrCode) (a : Bool) : (f.atCommit c a).ovr = f.ovr := rfl
@[simp] theorem Flags.atCommit_errCode (c : ErrCode) (a : Bool) : (f.atCommit c a).errCode = c := rfl

@[simp] theorem Flags.atCommit_error (c : ErrCode) (a : Bool) (h : c ≠ .none) : (f.atCommit c a).err = true := by
  simp [h]

/-- BUSY by sequencer state (10_state R43). -/
theorem busy_iff : s.busy = true ↔ s.seqState ≠ .idle := by simp [State.busy]

theorem busy_eq_false : s.busy = false ↔ s.seqState = .idle := by simp [State.busy]

/-- Releasing RESET where it is asserted is assertion's reset with the pin low. -/
theorem releaseReset_of_rst (h : s.rst = true) : releaseReset s = { assertReset s with rst := false } := by
  simp [releaseReset, h, assertReset]

theorem releaseReset_of_not_rst (h : s.rst = false) : releaseReset s = s := by simp [releaseReset, h]

end Sys2Proof.Machine
end

