-- ==== Sys2Proof/Laws/Bus.lean ====
section
/-! SUPPORT. What a bus access can do, said once, and the laws of lanes and addresses. -/

namespace Sys2Proof.Machine

/-! ### Lanes (20_memory R56) -/

@[simp] theorem length_toLanes (n : Nat) (v : Word) : (toLanes n v).length = n := by simp [toLanes]

theorem getElem_toLanes (n : Nat) (v : Word) (k : Nat) (_h : k < (toLanes n v).length) :
    (toLanes n v)[k] = laneByte v k := by simp [toLanes]

/-- Bit `i` of the word of a byte string is bit `i % 8` of byte `i / 8`. -/
theorem getLsbD_fromLanes (bs : Bytes) (i : Nat) :
    i < 32 → (fromLanes bs).getLsbD i = (bs.getD (i / 8) 0).getLsbD (i % 8) := by
  induction bs generalizing i with
  | nil => simp [fromLanes]
  | cons b bs ih =>
    intro h
    simp only [fromLanes, BitVec.getLsbD_or, BitVec.getLsbD_shiftLeft, BitVec.getLsbD_setWidth]
    by_cases hi : i < 8
    · simp [hi, h, Nat.div_eq_of_lt hi, Nat.mod_eq_of_lt hi]
    · have hd : i / 8 = (i - 8) / 8 + 1 := by omega
      have hm : i % 8 = (i - 8) % 8 := by omega
      rw [ih (i - 8) (by omega), hd, hm]
      simp [hi, h, BitVec.getLsbD_of_ge b i (by omega)]

/-- A bus word put together from its own lanes is the word cut to the access's width (20_memory R56). -/
theorem fromLanes_toLanes (n : Nat) (v : Word) :
    fromLanes (toLanes n v) = (v.setWidth (8 * n)).setWidth 32 := by
  refine BitVec.eq_of_getLsbD_eq fun i hi => ?_
  rw [getLsbD_fromLanes _ _ hi]
  simp only [BitVec.getLsbD_setWidth, hi, decide_true, Bool.true_and]
  by_cases hn : i < 8 * n
  · have hk : i / 8 < n := by omega
    rw [List.getD_eq_getElem _ _ (by simpa using hk), getElem_toLanes]
    simp only [laneByte, BitVec.getLsbD_extractLsb', hn, decide_true, Bool.true_and]
    rw [show 8 * (i / 8) + i % 8 = i by omega]
    simp [Nat.mod_lt]
  · rw [List.getD_eq_default _ _ (by simp; omega)]
    simp [hn]

/-- The lanes of a word put together from a byte string are that string. -/
theorem toLanes_fromLanes {bs : Bytes} (h : bs.length ≤ 4) : toLanes bs.length (fromLanes bs) = bs := by
  refine List.ext_getElem (by simp) fun k h1 h2 => ?_
  rw [getElem_toLanes]
  refine BitVec.eq_of_getLsbD_eq fun i hi => ?_
  simp only [laneByte, BitVec.getLsbD_extractLsb', hi, decide_true, Bool.true_and]
  rw [getLsbD_fromLanes _ _ (by omega), show (8 * k + i) / 8 = k by omega, show (8 * k + i) % 8 = i by omega,
    List.getD_eq_getElem _ _ h2]

/-! ### Regions (10_state R18) -/

theorem regAt_eq_none {off : Nat} (h : 0x54 ≤ off) : regAt off = none := by
  unfold regAt
  split <;> first | rfl | omega

/-- Past the registers an offset lies in the windows or nowhere. -/
theorem regionAt_window {off : Nat} (h : 0x54 ≤ off) : regionAt off = windowAt off windowMap := by
  simp [regionAt, regAt_eq_none (show 0x54 ≤ off / 4 * 4 by omega)]

/-- Every offset of the register map, and what lies there: the one lemma the laws of regions come from. -/
theorem regionAt_cases (off : Nat) :
    (off < 0x54 ∧ ∃ r, regAt (off / 4 * 4) = some r ∧ regionAt off = .reg r) ∨
    (∃ i, off = 0x100 + i ∧ i < 64 ∧ regionAt off = .cekw i) ∨
    (∃ i, off = 0x140 + i ∧ i < 16 ∧ regionAt off = .ivw i) ∨
    (∃ i, off = 0x180 + i ∧ i < 32 ∧ regionAt off = .tagInw i) ∨
    (∃ i, off = 0x1C0 + i ∧ i < 32 ∧ regionAt off = .tagOutw i) ∨
    (∃ i, off = 0x1000 + i ∧ i < Config.msgRamBytes ∧ regionAt off = .ram i) ∨
    (((0x054 ≤ off ∧ off < 0x100) ∨ (0x150 ≤ off ∧ off < 0x180) ∨ (0x1A0 ≤ off ∧ off < 0x1C0) ∨
      (0x1E0 ≤ off ∧ off < 0x1000) ∨ 0x1000 + Config.msgRamBytes ≤ off) ∧ regionAt off = .unmapped) := by
  by_cases h : off < 0x54
  · have hall : ∀ k, k < 21 → (regAt (k * 4)).isSome := by decide
    obtain ⟨r, hr⟩ := Option.isSome_iff_exists.1 (hall (off / 4) (by omega))
    exact .inl ⟨h, r, hr, by simp [regionAt, hr]⟩
  · rw [regionAt_window (by omega)]
    simp only [windowMap, windowAt]
    split_ifs with h1 h2 h3 h4 h5
    · exact .inr (.inl ⟨_, by omega, by omega, rfl⟩)
    · exact .inr (.inr (.inl ⟨_, by omega, by omega, rfl⟩))
    · exact .inr (.inr (.inr (.inl ⟨_, by omega, by omega, rfl⟩)))
    · exact .inr (.inr (.inr (.inr (.inl ⟨_, by omega, by omega, rfl⟩))))
    · exact .inr (.inr (.inr (.inr (.inr (.inl ⟨_, by omega, by omega, rfl⟩)))))
    · exact .inr (.inr (.inr (.inr (.inr (.inr ⟨by omega, rfl⟩)))))

/-- The byte windows and the RAM by index. -/
theorem regionAt_cekw {i : Nat} (h : i < 64) : regionAt (0x100 + i) = .cekw i := by
  rw [regionAt_window (by omega), windowMap, windowAt, if_pos (by omega), Nat.add_sub_cancel_left]

theorem regionAt_ivw {i : Nat} (h : i < 16) : regionAt (0x140 + i) = .ivw i := by
  rw [regionAt_window (by omega)]
  simp only [windowMap, windowAt]
  split_ifs <;> first | omega | rw [Nat.add_sub_cancel_left]

theorem regionAt_tagInw {i : Nat} (h : i < 32) : regionAt (0x180 + i) = .tagInw i := by
  rw [regionAt_window (by omega)]
  simp only [windowMap, windowAt]
  split_ifs <;> first | omega | rw [Nat.add_sub_cancel_left]

theorem regionAt_tagOutw {i : Nat} (h : i < 32) : regionAt (0x1C0 + i) = .tagOutw i := by
  rw [regionAt_window (by omega)]
  simp only [windowMap, windowAt]
  split_ifs <;> first | omega | rw [Nat.add_sub_cancel_left]

theorem regionAt_ram {i : Nat} (h : i < Config.msgRamBytes) : regionAt (0x1000 + i) = .ram i := by
  rw [regionAt_window (by omega)]
  simp only [windowMap, windowAt]
  split_ifs <;> first | omega | rw [Nat.add_sub_cancel_left]

theorem regionAt_ram_inv {off i : Nat} (h : regionAt off = .ram i) : off = 0x1000 + i ∧ i < Config.msgRamBytes := by
  have hc := regionAt_cases off
  rw [h] at hc
  simpa using hc

theorem legalAccess_width {off n : Nat} (h : legalAccess off n = true) : n = 1 ∨ n = 2 ∨ n = 4 := by
  unfold legalAccess at h
  cases hr : regionAt off <;> simp_all [widthOk]
  all_goals omega

theorem legalAccess_aligned {off n : Nat} (h : legalAccess off n = true) : off % n = 0 := by
  simp only [legalAccess, Bool.and_eq_true, beq_iff_eq] at h
  exact h.2

/-- A legal RAM access lies inside the RAM: no access crosses a region's end (20_memory R58). -/
theorem legalAccess_ram {off n i : Nat} (h : legalAccess off n = true) (hr : regionAt off = .ram i) :
    i + n ≤ Config.msgRamBytes := by
  obtain ⟨rfl, hi⟩ := regionAt_ram_inv hr
  have hn := legalAccess_width h
  have ha := legalAccess_aligned h
  simp only [Config.msgRamBytes] at *
  rcases hn with rfl | rfl | rfl <;> omega

/-! ### What an access answers -/

/-- A read changes the draw counter at most (20_memory R61). -/
theorem readRegion_state (r : Region) (n : Nat) (s : State) :
    (readRegion r n s).2 = s ∨ (s.busy = true ∧ (readRegion r n s).2 = { s with draws := s.draws + n }) := by
  cases r <;> simp [readRegion]
  split <;> simp_all

/-- What a read does where HAUTH decodes the access and where it does not (20_memory R50, R54). -/
theorem busRead_of_decoded {off : Nat} (h : decoded off = true) (n : Nat) (s : State) :
    busRead off n s = if legalAccess off n then .ok (readRegion (regionAt off) n s) else .busError := by
  simp [busRead, h]

theorem busRead_of_not_decoded {off : Nat} (h : decoded off = false) (n : Nat) (s : State) :
    busRead off n s = .notDecoded := by simp [busRead, h]

theorem busWrite_of_decoded {off : Nat} (h : decoded off = true) (n : Nat) (v : Word) (s : State) :
    busWrite off n v s = if legalAccess off n then
      if regionAt off = .reg .status then .ok (writeStatus v s)
      else if s.busy then .ok (ignoreWrite s)
      else .ok (writeRegion (regionAt off) n v s)
    else .busError := by
  simp [busWrite, h]

theorem busWrite_of_not_decoded {off : Nat} (h : decoded off = false) (n : Nat) (v : Word) (s : State) :
    busWrite off n v s = .notDecoded := by simp [busWrite, h]

/-- A legal access lies in the window, so HAUTH decodes it. -/
theorem decoded_of_legalAccess {off n : Nat} (h : legalAccess off n = true) : decoded off = true := by
  simp only [legalAccess, Bool.and_eq_true] at h
  refine decide_eq_true ?_
  have hc := regionAt_cases off
  simp only [Config.windowBytes, Config.msgRamBytes] at hc ⊢
  rcases hc with _ | _ | _ | _ | _ | _ | ⟨_, hr⟩
  case inr.inr.inr.inr.inr.inr => simp [hr, widthOk] at h
  all_goals omega

/-- What a read that is answered has done (20_memory R55, R61). -/
theorem busRead_ok {off n : Nat} {s t : State} {v : Word} (h : busRead off n s = .ok (v, t)) :
    t = s ∨ (s.busy = true ∧ t = { s with draws := s.draws + n }) := by
  unfold busRead at h
  split_ifs at h
  have := readRegion_state (regionAt off) n s
  rwa [Reply.ok.inj h] at this

/-- What a write that is answered has done (20_memory R55). -/
theorem busWrite_ok {off n : Nat} {v : Word} {s t : State} (h : busWrite off n v s = .ok t) :
    legalAccess off n = true ∧
    ((regionAt off = .reg .status ∧ t = writeStatus v s) ∨
     (regionAt off ≠ .reg .status ∧ s.busy = true ∧ t = ignoreWrite s) ∨
     (regionAt off ≠ .reg .status ∧ s.busy = false ∧ t = writeRegion (regionAt off) n v s)) := by
  unfold busWrite at h
  split_ifs at h with _ hl hs hb <;> cases h <;> simp_all

/-- What an accepted write can be, region by region (20_memory R55, R60). -/
theorem writeRegion_cases (r : Region) (n : Nat) (v : Word) (s : State) (hr : r ≠ .reg .status) :
    (writeRegion r n v s = s) ∨ (r = .reg .cmd ∧ writeRegion r n v s = issue v s) ∨
    (∃ o, writeRegion r n v s = { s with ops := o }) ∨ (∃ w, writeRegion r n v s = { s with win := w }) ∨
    (∃ i, r = .ram i ∧ writeRegion r n v s = { s with ram := Memory.writeBytes s.ram i (toLanes n v) }) := by
  cases r with
  | reg q =>
    cases q
    case ctrl => exact .inr (.inr (.inl ⟨_, rfl⟩))
    case cekLen => exact .inr (.inr (.inl ⟨_, rfl⟩))
    case tagInLen => exact .inr (.inr (.inl ⟨_, rfl⟩))
    case hdrOff => exact .inr (.inr (.inl ⟨_, rfl⟩))
    case hdrLen => exact .inr (.inr (.inl ⟨_, rfl⟩))
    case aadOff => exact .inr (.inr (.inl ⟨_, rfl⟩))
    case aadLen => exact .inr (.inr (.inl ⟨_, rfl⟩))
    case inOff => exact .inr (.inr (.inl ⟨_, rfl⟩))
    case inLen => exact .inr (.inr (.inl ⟨_, rfl⟩))
    case outOff => exact .inr (.inr (.inl ⟨_, rfl⟩))
    case cmd => exact .inr (.inl ⟨rfl, rfl⟩)
    case status => exact absurd rfl hr
    all_goals exact .inl rfl
  | cekw i => exact .inr (.inr (.inr (.inl ⟨_, rfl⟩)))
  | ivw i => exact .inr (.inr (.inr (.inl ⟨_, rfl⟩)))
  | tagInw i => exact .inr (.inr (.inr (.inl ⟨_, rfl⟩)))
  | tagOutw i => exact .inl rfl
  | ram i => exact .inr (.inr (.inr (.inr ⟨i, rfl, rfl⟩)))
  | unmapped => exact .inl rfl

/-! ### Bus addresses (20_memory R50) -/

/-- An access at BLOCK_BASE plus an offset is the access at that offset (20_memory R50, 30_encoding R79). -/
@[simp] theorem memRead_blockBase_add (off n : Nat) (s : State) :
    memRead (Config.blockBase + off) n s = busRead off n s := by simp [memRead]

@[simp] theorem memWrite_blockBase_add (off n : Nat) (v : Word) (s : State) :
    memWrite (Config.blockBase + off) n v s = busWrite off n v s := by simp [memWrite]

end Sys2Proof.Machine
end

