-- ==== Sys2Proof/Laws/Tag.lean ====
section
/-! SUPPORT. The laws of the tag protocol: hash and tag lengths, the key split, what CTEQ answers, and the engine port. -/

namespace Sys2Proof.Machine

/-! ### Lengths -/

@[simp] theorem length_zeros (n : Nat) : (zeros n).length = n := by simp [zeros]

@[simp] theorem length_shaBytesOf {w : Nat} (x : BitVec w) : (shaBytesOf x).length = w / 8 := by simp [shaBytesOf]

theorem length_shaCompress {w : Nat} (c : ShaCfg w) (hv : List (BitVec w)) (b : Bytes) :
    (shaCompress c hv b).length = 8 := by simp [shaCompress]

theorem length_foldl_shaCompress {w : Nat} (c : ShaCfg w) (bs : List Bytes) (hv : List (BitVec w))
    (h : hv.length = 8) : (bs.foldl (shaCompress c) hv).length = 8 := by
  induction bs generalizing hv with
  | nil => exact h
  | cons b bs ih => exact ih _ (length_shaCompress c hv b)

theorem length_shaHash {w : Nat} (c : ShaCfg w) (hv : List (BitVec w)) (h : hv.length = 8) (m : Bytes) :
    (shaHash c hv m).length = 8 * (w / 8) := by
  have := length_foldl_shaCompress c
    (chunks (16 * (w / 8)) ((shaPad (16 * (w / 8)) c.lenBytes m).length / (16 * (w / 8)))
      (shaPad (16 * (w / 8)) c.lenBytes m)) hv h
  simp [shaHash, List.length_flatMap, this]
  omega

theorem length_sha256 (m : Bytes) : (sha256 m).length = 32 := by
  exact length_shaHash sha256Cfg sha256Init (by simp [sha256Init]) m

theorem length_sha512 (m : Bytes) : (sha512 m).length = 64 := by
  exact length_shaHash sha512Cfg sha512Init (by simp [sha512Init]) m

theorem length_sha384 (m : Bytes) : (sha384 m).length = 48 := by
  have := length_shaHash sha512Cfg sha384Init (by simp [sha384Init]) m
  simp [sha384, this]

/-! ### Variants (00_scope R7) -/

/-- The rows of the variant parameter set. -/
theorem par_cases {v : BitVec 2} {p : Par} (h : par v = some p) :
    (v = 0 ∧ p = ⟨.sha256, 32, 32, 16, 16, 64⟩) ∨ (v = 1 ∧ p = ⟨.sha384, 48, 48, 24, 24, 128⟩) ∨
      (v = 2 ∧ p = ⟨.sha512, 64, 64, 32, 32, 128⟩) := by
  have hall : ∀ u : BitVec 2, u = 0 ∨ u = 1 ∨ u = 2 ∨ u = 3 := by decide
  rcases hall v with rfl | rfl | rfl | rfl <;> simp_all [par]

theorem par_eq_none_iff {v : BitVec 2} : par v = none ↔ v = 3 := by revert v; decide

theorem par_tlen_le {v : BitVec 2} {p : Par} (h : par v = some p) : p.tlen ≤ 32 := by
  rcases par_cases h with ⟨-, rfl⟩ | ⟨-, rfl⟩ | ⟨-, rfl⟩ <;> decide

/-- The digest of a variant's hash has the variant's digest length (40_tag_protocol R96). -/
theorem length_hashOf {v : BitVec 2} {p : Par} (h : par v = some p) (m : Bytes) : (hashOf p.hash m).length = p.dlen := by
  rcases par_cases h with ⟨-, rfl⟩ | ⟨-, rfl⟩ | ⟨-, rfl⟩
  · exact length_sha256 m
  · exact length_sha384 m
  · exact length_sha512 m

/-- A tag has the variant's tag length (40_tag_protocol R93). -/
theorem length_computeTag {v : BitVec 2} {p : Par} (h : par v = some p) (cek iv hd : Bytes) (a : Option Bytes)
    (c : Bytes) (mode : AlMode) : (computeTag p cek iv hd a c mode).length = p.tlen := by
  have hd' : p.dlen / 2 = p.tlen ∧ p.tlen ≤ p.dlen := by
    rcases par_cases h with ⟨-, rfl⟩ | ⟨-, rfl⟩ | ⟨-, rfl⟩ <;> decide
  simp only [computeTag, hmac, List.length_take, length_hashOf h]
  omega

/-! ### CTEQ (40_tag_protocol R97) -/

theorem foldl_or_eq_zero (f : Nat → Byte) (l : List Nat) (d : Byte) :
    l.foldl (fun d i => d ||| f i) d = 0 ↔ d = 0 ∧ ∀ i ∈ l, f i = 0 := by
  induction l generalizing d with
  | nil => simp
  | cons i l ih =>
    rw [List.foldl_cons, ih]
    simp [and_assoc]

/-- CTEQ answers true exactly when the declared length is the tag's and the first bytes are the tag. -/
theorem ctEq_iff {t s : Bytes} {tlen slen : Nat} (ht : t.length = tlen) (hle : tlen ≤ 32) (hs : s.length = 32) :
    ctEq t tlen s slen = true ↔ slen = tlen ∧ s.take tlen = t := by
  unfold ctEq
  simp only [beq_iff_eq]
  rw [foldl_or_eq_zero]
  have hstart : ((if slen = tlen then 0 else 1 : Byte) = 0) ↔ slen = tlen := by split <;> simp_all
  rw [hstart]
  refine and_congr_right fun _ => ⟨fun h => ?_, fun h i hi => ?_⟩
  · refine List.ext_getElem (by simp [hs, ht, hle]) fun i h1 h2 => ?_
    have hi : i < tlen := by omega
    have hb := h i (by simp; omega)
    rw [if_pos hi] at hb
    have hones : ∀ x : Byte, x &&& 0xFF = x := by decide
    have hb' : s.getD i 0 ^^^ (t ++ zeros (32 - tlen)).getD i 0 = 0 := (hones _).symm.trans hb
    have he := BitVec.xor_eq_zero_iff.1 hb'
    rw [List.getElem_take]
    rw [List.getD_eq_getElem _ _ (by omega), List.getD_eq_getElem _ _ (by simp; omega),
      List.getElem_append_left h2] at he
    exact he
  · by_cases hit : i < tlen
    · rw [if_pos hit]
      have hst : s.getD i 0 = t.getD i 0 := by
        rw [← h, List.getD_eq_getElem _ _ (by omega), List.getD_eq_getElem _ _ (by simp; omega), List.getElem_take]
      have : (t ++ zeros (32 - tlen)).getD i 0 = t.getD i 0 := by
        rw [List.getD_eq_getElem _ _ (by simp; omega), List.getD_eq_getElem _ _ (by omega),
          List.getElem_append_left (by omega)]
      rw [hst, this]
      simp
    · rw [if_neg hit]
      simp

/-! ### The engine port (40_tag_protocol R100, R101) -/

/-- What an accepted encrypt response is. -/
theorem engineEncrypt_ok {eng : Engine} {k iv p c : Bytes} (h : engineEncrypt eng k iv p = .ok c) :
    eng .enc k iv p = .ok c ∧ c.length = 16 * (p.length / 16 + 1) := by
  unfold engineEncrypt at h
  split at h
  · cases h
  · split at h
    · cases h
    · cases h
      rename_i ho hl
      exact ⟨ho, not_not.1 hl⟩

/-- What an accepted decrypt response is. -/
theorem engineDecrypt_ok {eng : Engine} {k iv c p : Bytes} (h : engineDecrypt eng k iv c = .ok p) :
    eng .dec k iv c = .ok p ∧ p.length ≤ c.length := by
  unfold engineDecrypt at h
  split at h
  · cases h
  · split at h
    · cases h
    · cases h
      rename_i ho hl
      exact ⟨ho, Nat.le_of_not_gt hl⟩

/-- The engine port raises ENGINE_FAILURE and nothing else. -/
theorem engineEncrypt_error {eng : Engine} {k iv p : Bytes} {e : ErrCode} (h : engineEncrypt eng k iv p = .error e) :
    e = .engineFailure := by
  unfold engineEncrypt at h
  split at h
  · cases h; rfl
  · split at h <;> cases h
    rfl

theorem engineDecrypt_error {eng : Engine} {k iv c : Bytes} {e : ErrCode} (h : engineDecrypt eng k iv c = .error e) :
    e = .engineFailure := by
  unfold engineDecrypt at h
  split at h
  · cases h; rfl
  · split at h <;> cases h
    rfl

/-! ### Pieces of a byte string -/

theorem length_chunks (n k : Nat) (bs : Bytes) : (chunks n k bs).length = k := by
  induction k generalizing bs with
  | zero => rfl
  | succ k ih => simp [chunks, ih]

theorem length_of_mem_chunks {n k : Nat} {bs : Bytes} (h : n * k ≤ bs.length) : ∀ x ∈ chunks n k bs, x.length = n := by
  induction k generalizing bs with
  | zero => simp [chunks]
  | succ k ih =>
    intro x hx
    rw [Nat.mul_succ] at h
    rcases List.mem_cons.1 hx with rfl | hx
    · simp; omega
    · exact ih (by simp; omega) x hx

/-- The pieces put together are the byte string they cut. -/
theorem flatten_chunks {n k : Nat} {bs : Bytes} (h : n * k = bs.length) : (chunks n k bs).flatten = bs := by
  induction k generalizing bs with
  | zero =>
    simp only [Nat.mul_zero] at h
    simp [chunks, List.eq_nil_of_length_eq_zero h.symm]
  | succ k ih =>
    rw [Nat.mul_succ] at h
    rw [chunks, List.flatten_cons, ih (by simp; omega), List.take_append_drop]

/-- Cutting a first piece and a rest of known length. -/
theorem chunks_append {n k : Nat} {x bs : Bytes} (h : x.length = n) :
    chunks n (k + 1) (x ++ bs) = x :: chunks n k bs := by
  simp [chunks, ← h]

end Sys2Proof.Machine
end

