-- ==== Sys2Proof/Laws/Operands.lean ====
section
/-! SUPPORT. What Precheck answers (60_exceptions R138): the one lemma by which later proofs use it. -/

namespace Sys2Proof.Machine

theorem inRam_iff {off len : Nat} : inRam off len = true ↔ off + len ≤ Config.msgRamBytes := by simp [inRam]

/-- What the range checks say, op by op. -/
theorem rangesOk_iff {op : CryptoOp} {s : State} : rangesOk op s = true ↔
    s.ops.hdrOff.toNat + s.ops.hdrLen.toNat ≤ Config.msgRamBytes ∧
    (s.ops.ctrl.aadp = true → s.ops.aadOff.toNat + s.ops.aadLen.toNat ≤ Config.msgRamBytes) ∧
    s.ops.inOff.toNat + s.ops.inLen.toNat ≤ Config.msgRamBytes ∧
    (op = .enc → s.ops.outOff.toNat + 16 * (s.ops.inLen.toNat / 16 + 1) ≤ Config.msgRamBytes) ∧
    (op = .dec → s.ops.outOff.toNat + s.ops.inLen.toNat ≤ Config.msgRamBytes) := by
  cases op <;> cases h : s.ops.ctrl.aadp <;> simp [rangesOk, outputBound, inRam_iff, h, and_assoc]

/-- Precheck passes exactly when each of its checks does. -/
theorem precheck_ok_iff {op : CryptoOp} {s : State} {p : Par} : precheck op s = .ok p ↔
    s.engRdy = true ∧ par s.ops.ctrl.variant = some p ∧ s.ops.cekLen.toNat = p.cekBytes ∧ rangesOk op s = true := by
  unfold precheck
  cases hr : s.engRdy
  · simp
  · cases hp : par s.ops.ctrl.variant with
    | none => simp
    | some q =>
      simp only [Bool.not_true, Bool.false_eq_true, if_false, true_and, Option.some.injEq]
      by_cases hc : s.ops.cekLen.toNat * 8 = 8 * q.cekBytes
      · rw [if_neg (by simpa using hc)]
        have hq : s.ops.cekLen.toNat = q.cekBytes := by omega
        by_cases hk : rangesOk op s = true
        · simp only [hk, if_true, Except.ok.injEq, and_true]
          exact ⟨fun h => h ▸ ⟨rfl, hq⟩, fun h => h.1⟩
        · simp [hk]
      · rw [if_pos (by simpa using hc)]
        simp only [reduceCtorEq, false_iff, not_and]
        intro h h'
        subst h
        omega

/-- Every error of Precheck, with the checks passed before it. -/
theorem precheck_error_cases {op : CryptoOp} {s : State} {e : ErrCode} (h : precheck op s = .error e) :
    (e = .engineUnavailable ∧ s.engRdy = false) ∨
    (e = .illegalCfg ∧ s.engRdy = true ∧ par s.ops.ctrl.variant = none) ∨
    (∃ p, e = .invalidKeyLength ∧ s.engRdy = true ∧ par s.ops.ctrl.variant = some p ∧
      s.ops.cekLen.toNat ≠ p.cekBytes) ∨
    (∃ p, e = .rangeError ∧ s.engRdy = true ∧ par s.ops.ctrl.variant = some p ∧
      s.ops.cekLen.toNat = p.cekBytes ∧ rangesOk op s = false) := by
  unfold precheck at h
  cases hr : s.engRdy
  · simp_all
  · cases hp : par s.ops.ctrl.variant with
    | none => simp_all
    | some q =>
      simp only [hr, hp, Bool.not_true, Bool.false_eq_true, if_false] at h
      by_cases hc : s.ops.cekLen.toNat * 8 = 8 * q.cekBytes
      · rw [if_neg (by simpa using hc)] at h
        cases hk : rangesOk op s
        · simp_all
          omega
        · simp_all
      · rw [if_pos (by simpa using hc)] at h
        cases h
        refine .inr (.inr (.inl ⟨q, rfl, rfl, rfl, fun h => hc ?_⟩))
        rw [h, Nat.mul_comm]

/-- Precheck's errors are never NONE. -/
theorem precheck_error_ne_none {op : CryptoOp} {s : State} {e : ErrCode} (h : precheck op s = .error e) : e ≠ .none := by
  rcases precheck_error_cases h with ⟨rfl, -⟩ | ⟨rfl, -⟩ | ⟨-, rfl, -⟩ | ⟨-, rfl, -⟩ <;> simp

theorem length_inputOf (s : State) : (inputOf s).length = s.ops.inLen.toNat := by
  simp [inputOf]

theorem length_ivOf (s : State) : (ivOf s).length = 16 := by simp [ivOf]

/-- After Precheck the CEK has the variant's length (41_content_ops R108). -/
theorem length_cekOf {op : CryptoOp} {s : State} {p : Par} (h : precheck op s = .ok p) :
    (cekOf s).length = p.cekBytes := by
  obtain ⟨-, hp, hc, -⟩ := precheck_ok_iff.1 h
  have : p.cekBytes ≤ 64 := by rcases par_cases hp with ⟨-, rfl⟩ | ⟨-, rfl⟩ | ⟨-, rfl⟩ <;> decide
  simp [cekOf, hc, this]

end Sys2Proof.Machine
end

