-- ==== Sys2Proof/Laws/Completion.lean ====
section
/-! SUPPORT. What a completion step can do, said once: the result of each Exec function by cases, and the facts every
committed Result has. -/

namespace Sys2Proof.Machine

/-! ### The Exec functions by cases -/

/-- ENC succeeds only after Precheck and an accepted engine response (41_content_ops R108). -/
theorem encResult_ok {eng : Engine} {s : State} {r : Result} (h : encResult eng s = .ok r) :
    ∃ p c, precheck .enc s = .ok p ∧ engineEncrypt eng (keySplit (cekOf s)).2 (ivOf s) (inputOf s) = .ok c ∧
      r = { code := .none, ramWrite := some (s.ops.outOff.toNat, c), outLen := BitVec.ofNat 16 c.length,
            tagOut := windowOf 32 (computeTag p (cekOf s) (ivOf s) (headerOf s) (aadOf s) c s.ops.ctrl.alMode),
            tagOutLen := BitVec.ofNat 6 p.tlen, authOk := false, zeroRam := false } := by
  unfold encResult at h
  split at h
  · cases h
  · split at h
    · cases h
    · rename_i p hp _ c hc
      cases h
      exact ⟨p, c, hp, hc, rfl⟩

/-- What ENC raises. -/
theorem encResult_error {eng : Engine} {s : State} {e : Raised} (h : encResult eng s = .error e) :
    e.code ≠ .none ∧ e.matched = false := by
  unfold encResult at h
  split at h
  · rename_i hp
    cases h
    exact ⟨precheck_error_ne_none hp, rfl⟩
  · split at h
    · rename_i he
      cases h
      exact ⟨by simp [engineEncrypt_error he], rfl⟩
    · cases h

/-- DEC succeeds only after Precheck, a matching tag and an accepted engine response (41_content_ops R112). -/
theorem decResult_ok {eng : Engine} {s : State} {r : Result} (h : decResult eng s = .ok r) :
    ∃ p pt, precheck .dec s = .ok p ∧
      ctEq (computeTag p (cekOf s) (ivOf s) (headerOf s) (aadOf s) (inputOf s) s.ops.ctrl.alMode) p.tlen
        s.win.tagInw.toList s.ops.tagInLen.toNat = true ∧
      engineDecrypt eng (keySplit (cekOf s)).2 (ivOf s) (inputOf s) = .ok pt ∧
      r = { code := .none, ramWrite := some (s.ops.outOff.toNat, pt), outLen := BitVec.ofNat 16 pt.length,
            tagOut := Vector.replicate 32 0, tagOutLen := 0, authOk := true, zeroRam := false } := by
  unfold decResult at h
  split at h
  · cases h
  · rename_i p hp
    dsimp only at h
    split at h
    · rename_i hq
      split at h
      · cases h
      · rename_i pt hd
        cases h
        exact ⟨p, pt, hp, hq, hd, rfl⟩
    · cases h

/-- What DEC raises: AUTHOK stands with ENGINE_FAILURE only (43_control_ops R126). -/
theorem decResult_error {eng : Engine} {s : State} {e : Raised} (h : decResult eng s = .error e) :
    e.code ≠ .none ∧ (e.matched = true → e.code = .engineFailure) := by
  unfold decResult at h
  split at h
  · rename_i hp
    cases h
    exact ⟨precheck_error_ne_none hp, by simp⟩
  · dsimp only at h
    split at h
    · split at h
      · rename_i he
        cases h
        simp [engineDecrypt_error he]
      · cases h
    · cases h
      simp

/-- TAG succeeds exactly where Precheck passes (42_tag_ops R117). -/
theorem tagResult_ok {s : State} {r : Result} (h : tagResult s = .ok r) :
    ∃ p, precheck .tag s = .ok p ∧
      r = { code := .none, ramWrite := none, outLen := 0,
            tagOut := windowOf 32
              (computeTag p (cekOf s) (ivOf s) (headerOf s) (aadOf s) (inputOf s) s.ops.ctrl.alMode),
            tagOutLen := BitVec.ofNat 6 p.tlen, authOk := false, zeroRam := false } := by
  unfold tagResult at h
  split at h
  · cases h
  · rename_i p hp
    cases h
    exact ⟨p, hp, rfl⟩

theorem tagResult_error {s : State} {e : Raised} (h : tagResult s = .error e) :
    e.code ≠ .none ∧ e.matched = false := by
  unfold tagResult at h
  split at h
  · rename_i hp
    cases h
    exact ⟨precheck_error_ne_none hp, rfl⟩
  · cases h

/-- VERIFY succeeds only after Precheck and a matching tag (42_tag_ops R120). -/
theorem verifyResult_ok {s : State} {r : Result} (h : verifyResult s = .ok r) :
    ∃ p, precheck .verify s = .ok p ∧
      ctEq (computeTag p (cekOf s) (ivOf s) (headerOf s) (aadOf s) (inputOf s) s.ops.ctrl.alMode) p.tlen
        s.win.tagInw.toList s.ops.tagInLen.toNat = true ∧
      r = { code := .none, ramWrite := none, outLen := 0, tagOut := Vector.replicate 32 0, tagOutLen := 0,
            authOk := true, zeroRam := false } := by
  unfold verifyResult at h
  split at h
  · cases h
  · rename_i p hp
    dsimp only at h
    split at h
    · rename_i hq
      cases h
      exact ⟨p, hp, hq, rfl⟩
    · cases h

theorem verifyResult_error {s : State} {e : Raised} (h : verifyResult s = .error e) :
    e.code ≠ .none ∧ e.matched = false := by
  unfold verifyResult at h
  split at h
  · rename_i hp
    cases h
    exact ⟨precheck_error_ne_none hp, rfl⟩
  · dsimp only at h
    split at h
    · cases h
    · cases h
      simp

/-! ### What every committed Result has -/

/-- The facts the invariant needs of a Result. -/
structure Result.Good (r : Result) : Prop where
  /-- the RAM write stays in bounds (43_control_ops R129) -/
  bounded : ∀ o bs, r.ramWrite = some (o, bs) → o + bs.length ≤ Config.msgRamBytes
  /-- an error has no output (43_control_ops R129) -/
  error_empty : r.code ≠ .none → r.ramWrite = none ∧ r.zeroRam = false ∧ r.outLen = 0 ∧ r.tagOutLen = 0 ∧
    r.tagOut = Vector.replicate 32 0
  authOk_code : r.authOk = true → r.tagOutLen = 0 ∧ (r.code = .none ∨ r.code = .engineFailure)
  tagOutLen_legal : r.tagOutLen.toNat ∈ [0, 16, 24, 32]
  tagOut_tail : ∀ i, r.tagOutLen.toNat ≤ i → r.tagOut.toList.getD i 0 = 0

theorem getD_replicate_zero (n i : Nat) : (Vector.replicate n (0 : Byte)).toList.getD i 0 = 0 := by
  simp [List.getD_eq_getElem?_getD, List.getElem?_replicate]
  split <;> rfl

theorem failureResult_good {e : Raised} (hm : e.matched = true → e.code = .engineFailure) : (failureResult e).Good where
  bounded := by simp [failureResult]
  error_empty := by simp [failureResult]
  authOk_code := fun h => ⟨rfl, .inr (hm h)⟩
  tagOutLen_legal := by simp [failureResult]
  tagOut_tail := fun i _ => getD_replicate_zero 32 i

/-- A tag placed in TAGOUTW: its length is legal and the bytes past it are zero (10_state R41). -/
theorem tagWindow_tail {v : BitVec 2} {p : Par} (hp : par v = some p) {t : Bytes} (ht : t.length = p.tlen) :
    (BitVec.ofNat 6 p.tlen).toNat ∈ [0, 16, 24, 32] ∧
      ∀ i, (BitVec.ofNat 6 p.tlen).toNat ≤ i → (windowOf 32 t).toList.getD i 0 = 0 := by
  have htl : (BitVec.ofNat 6 p.tlen).toNat = p.tlen ∧ p.tlen ∈ [0, 16, 24, 32] := by
    rcases par_cases hp with ⟨-, rfl⟩ | ⟨-, rfl⟩ | ⟨-, rfl⟩ <;> decide
  rw [htl.1]
  refine ⟨htl.2, fun i hi => ?_⟩
  rw [windowOf_toList_of_length (by rw [ht]; exact par_tlen_le hp), List.getD_append_right _ _ _ _ (by omega)]
  simp [zeros, List.getD_eq_getElem?_getD, List.getElem?_replicate]
  split <;> rfl

theorem resultOf_good_of_cases {x : Except Raised Result} (hok : ∀ r, x = .ok r → r.Good)
    (herr : ∀ e, x = .error e → e.matched = true → e.code = .engineFailure) : (resultOf x).Good := by
  cases x with
  | ok r => exact hok r rfl
  | error e => exact failureResult_good (herr e rfl)

theorem encResult_good (eng : Engine) (s : State) : (resultOf (encResult eng s)).Good := by
  refine resultOf_good_of_cases (fun r h => ?_) fun e h hm => by simp [(encResult_error h).2] at hm
  obtain ⟨p, c, hp, hc, rfl⟩ := encResult_ok h
  obtain ⟨-, hpar, -, hr⟩ := precheck_ok_iff.1 hp
  have hlen := (engineEncrypt_ok hc).2
  have hout := (rangesOk_iff.1 hr).2.2.2.1 rfl
  have htag := tagWindow_tail hpar
    (length_computeTag hpar (cekOf s) (ivOf s) (headerOf s) (aadOf s) c s.ops.ctrl.alMode)
  refine ⟨fun o bs h => ?_, by simp, by simp, htag.1, htag.2⟩
  cases h
  rw [hlen, length_inputOf]
  exact hout

theorem decResult_good (eng : Engine) (s : State) : (resultOf (decResult eng s)).Good := by
  refine resultOf_good_of_cases (fun r h => ?_) fun e h hm => (decResult_error h).2 hm
  obtain ⟨p, pt, hp, -, hd, rfl⟩ := decResult_ok h
  have hlen := (engineDecrypt_ok hd).2
  have hout := (rangesOk_iff.1 (precheck_ok_iff.1 hp).2.2.2).2.2.2.2 rfl
  rw [length_inputOf] at hlen
  refine ⟨fun o bs h => ?_, by simp, by simp, by simp, fun i _ => getD_replicate_zero 32 i⟩
  cases h
  omega

theorem tagResult_good (s : State) : (resultOf (tagResult s)).Good := by
  refine resultOf_good_of_cases (fun r h => ?_) fun e h hm => by simp [(tagResult_error h).2] at hm
  obtain ⟨p, hp, rfl⟩ := tagResult_ok h
  have hpar := (precheck_ok_iff.1 hp).2.1
  have htag := tagWindow_tail hpar
    (length_computeTag hpar (cekOf s) (ivOf s) (headerOf s) (aadOf s) (inputOf s) s.ops.ctrl.alMode)
  exact ⟨by simp, by simp, by simp, htag.1, htag.2⟩

theorem verifyResult_good (s : State) : (resultOf (verifyResult s)).Good := by
  refine resultOf_good_of_cases (fun r h => ?_) fun e h hm => by simp [(verifyResult_error h).2] at hm
  obtain ⟨p, -, -, rfl⟩ := verifyResult_ok h
  exact ⟨by simp, by simp, by simp, by simp, fun i _ => getD_replicate_zero 32 i⟩

theorem emptyResult_good (z : Bool) : (emptyResult z).Good :=
  ⟨by simp [emptyResult], by simp [emptyResult], by simp [emptyResult], by simp [emptyResult],
    fun i _ => getD_replicate_zero 32 i⟩

/-- Every command completes (43_control_ops R134) with a good Result; NOP's completion alone keeps the windows (R130). -/
theorem exec_cases (i : Instr) (s : State) : ∃ r, r.Good ∧
    ((i ≠ .nop ∧ exec i s = .next (complete r s)) ∨ (i = .nop ∧ exec i s = .next (completeKeeping r s))) := by
  cases i with
  | nop => exact ⟨_, emptyResult_good false, .inr ⟨rfl, rfl⟩⟩
  | enc => exact ⟨_, encResult_good Config.engine s, .inl ⟨by simp, rfl⟩⟩
  | dec => exact ⟨_, decResult_good Config.engine s, .inl ⟨by simp, rfl⟩⟩
  | tag => exact ⟨_, tagResult_good s, .inl ⟨by simp, rfl⟩⟩
  | verify => exact ⟨_, verifyResult_good s, .inl ⟨by simp, rfl⟩⟩
  | zeroize => exact ⟨_, emptyResult_good true, .inl ⟨by simp, rfl⟩⟩
  | reserved67 _ => exact ⟨_, failureResult_good (e := ⟨.illegalCmd, false⟩) (by simp), .inl ⟨by simp, rfl⟩⟩
  | reserved8F _ => exact ⟨_, failureResult_good (e := ⟨.illegalCmd, false⟩) (by simp), .inl ⟨by simp, rfl⟩⟩
  | illegalUpper _ _ => exact ⟨_, failureResult_good (e := ⟨.illegalCmd, false⟩) (by simp), .inl ⟨by simp, rfl⟩⟩

end Sys2Proof.Machine
end

