-- ==== Sys2Proof/Laws/PerInstr.lean ====
section
/-! SUPPORT. The per-instruction family `TableRow`: the word of every instruction lies in its row of the opcode table, and
in no other row (30_encoding R74, R76). -/

namespace Sys2Proof.Laws.TableRow

/-- The mask and match of a row of spec/opcode_table.json. ILLEGAL_UPPER's are those its condition complements. -/
def maskMatch : Instr → Word × Word
  | .nop => (0xFFFFFFFF, 0x00000000)
  | .enc => (0xFFFFFFFF, 0x00000001)
  | .dec => (0xFFFFFFFF, 0x00000002)
  | .tag => (0xFFFFFFFF, 0x00000003)
  | .verify => (0xFFFFFFFF, 0x00000004)
  | .zeroize => (0xFFFFFFFF, 0x00000005)
  | .reserved67 _ => (0xFFFFFFFE, 0x00000006)
  | .reserved8F _ => (0xFFFFFFF8, 0x00000008)
  | .illegalUpper _ _ => (0xFFFFFFF0, 0x00000000)

/-- The row's condition on a word: `(w & mask) = match`, and for ILLEGAL_UPPER its complement. -/
def inRow (i : Instr) (w : Word) : Prop :=
  match i with
  | .illegalUpper _ _ => w &&& (maskMatch i).1 ≠ (maskMatch i).2
  | _ => w &&& (maskMatch i).1 = (maskMatch i).2

/-- The word of a well-formed instruction is in its row. -/
def Statement (i : Instr) : Prop := i.wf = true → inRow i (encode i)

theorem nop : Statement .nop := fun _ => rfl
theorem enc : Statement .enc := fun _ => rfl
theorem dec : Statement .dec := fun _ => rfl
theorem tag : Statement .tag := fun _ => rfl
theorem verify : Statement .verify := fun _ => rfl
theorem zeroize : Statement .zeroize := fun _ => rfl

theorem reserved67 (low : BitVec 1) : Statement (.reserved67 low) := fun _ => by
  revert low
  simp only [inRow, maskMatch, encode]
  decide

theorem reserved8F (low : BitVec 3) : Statement (.reserved8F low) := fun _ => by
  revert low
  simp only [inRow, maskMatch, encode]
  decide

theorem illegalUpper (upper : BitVec 28) (opcode : BitVec 4) : Statement (.illegalUpper upper opcode) := fun h => by
  simp only [Instr.wf, bne_iff_ne, ne_eq] at h
  simp only [inRow, maskMatch, encode, ne_eq]
  intro hw
  refine h (BitVec.eq_of_getLsbD_eq fun k hk => ?_)
  have hb := congrArg (fun w : Word => w.getLsbD (k + 4)) hw
  have hmask : ∀ j : Fin 28, (0xFFFFFFF0#32).getLsbD (j.val + 4) = true := by decide
  simp only [BitVec.getLsbD_and, BitVec.getLsbD_append] at hb
  rw [if_neg (by omega), Nat.add_sub_cancel] at hb
  refine (((congrArg (upper.getLsbD k && ·) (hmask ⟨k, hk⟩)).trans (Bool.and_true _)).symm.trans hb).trans ?_
  simp

end Sys2Proof.Laws.TableRow
end

