-- ==== Sys2Proof/Laws/Step.lean ====
section
/-! SUPPORT. What one step of a run can do, said once. -/

namespace Sys2Proof.Machine

/-- What the turn `k` taken at `s` can make of it; `s` has the turn already off its schedule. -/
inductive TurnEffect (k : Turn) (s : State) : State → Prop
  /-- an agent with nothing to do, or a host instruction that touches only its own master -/
  | host (ms : List Master) (hk : k = .seq ∨ ∃ i, k = .master i) : TurnEffect k s { s with masters := ms }
  /-- the end of INIT (70_reset_and_hazards R159) -/
  | endInit (hk : k = .seq) (hr : s.rst = false) (hq : s.seqState = .init) : TurnEffect k s (endInit s)
  /-- a completion (43_control_ops R128) -/
  | completion (t : State) (hk : k = .seq) (hr : s.rst = false) (hq : s.seqState = .exec)
      (he : exec (decode s.pending) s = .next t) : TurnEffect k s t
  /-- a master's read -/
  | read (u : State) (ms : List Master) (i off n : Nat) (v : Word) (hk : k = .master i) (hr : s.rst = false)
      (hb : busRead off n s = .ok (v, u)) : TurnEffect k s { u with masters := ms }
  /-- a master's write: the first instruction of its program -/
  | write (u : State) (ms : List Master) (i : Nat) (m : Master) (line : Nat) (w : Width) (off : Nat) (v : Word)
      (rest : List (Nat × HostInstr)) (hk : k = .master i) (hr : s.rst = false) (hm : s.masters[i]? = some m)
      (hp : m.prog = (line, .wr w off v) :: rest) (hb : busWrite off (widthBytes w) v s = .ok u) :
      TurnEffect k s { u with masters := ms }
  /-- RESET asserted (70_reset_and_hazards R156) -/
  | assertReset (hk : k = .assertReset) : TurnEffect k s (assertReset s)
  /-- RESET released (70_reset_and_hazards R157) -/
  | releaseReset (hk : k = .releaseReset) (hr : s.rst = true) :
      TurnEffect k s { Machine.assertReset s with rst := false }
  /-- RESET released where it was low -/
  | releaseLow (hk : k = .releaseReset) (hr : s.rst = false) : TurnEffect k s s
  | enginePin (b : Bool) (hk : k = .enginePin b) : TurnEffect k s { s with enginePresent := b }

/-! ### Host-side variables -/

@[simp] theorem getVar_setVar_same (name : VarName) (v : HostVal) (vars : List (VarName × HostVal)) :
    getVar name (setVar name v vars) = some v := by
  induction vars with
  | nil => simp [setVar, getVar]
  | cons kx vars ih => by_cases h : kx.1 = name <;> simp [setVar, getVar, h, ih]

theorem getVar_setVar_other {name other : VarName} (h : other ≠ name) (v : HostVal) (vars : List (VarName × HostVal)) :
    getVar other (setVar name v vars) = getVar other vars := by
  induction vars with
  | nil => simp [setVar, getVar, h.symm]
  | cons kx vars ih =>
    by_cases hk : kx.1 = name
    · simp [setVar, getVar, hk, h.symm]
    · simp [setVar, getVar, hk, ih]

/-! ### A master's turn -/

/-- What an answered access leads to: on with the answer, or the master stopped by a bus error (20_memory R53). -/
theorem onReply_next {α : Type} {reply : Reply α} {i line : Nat} {m : Master} {s t : State} {k : α → State}
    (h : onReply reply i line m s k = .next t) :
    (∃ a, reply = .ok a ∧ t = k a) ∨ (reply = .busError ∧ t = s.setMaster i (m.stopAt line)) := by
  cases reply <;> simp_all [onReply]

/-- A master's read, whatever it then does with the answer. -/
theorem onReply_read_effect {off n i line : Nat} {m : Master} {s t : State} {k : Word → Master}
    (hr : s.rst = false)
    (h : (onReply (busRead off n s) i line m s fun a => a.2.setMaster i (k a.1)) = .next t) :
    TurnEffect (.master i) s t := by
  obtain ⟨⟨v, u⟩, ha, rfl⟩ | ⟨_, rfl⟩ := onReply_next h
  · exact .read u _ i off n v rfl hr ha
  · exact .host _ (.inr ⟨i, rfl⟩)

/-- One host instruction of master `i`, with RESET low where it makes an access. -/
theorem runHostInstr_effect {hi : HostInstr} {line : Nat} {rest : List (Nat × HostInstr)} {m : Master} {s t : State}
    {i : Nat} (hr : makesAccess hi = true → s.rst = false) (hm : s.masters[i]? = some m)
    (hp : m.prog = (line, hi) :: rest) (h : runHostInstr hi i line rest m s = .next t) :
    TurnEffect (.master i) s t := by
  cases hi with
  | wr w off v =>
    obtain ⟨u, hu, rfl⟩ | ⟨_, rfl⟩ := onReply_next h
    · exact .write u _ i m line w off v rest rfl (hr rfl) hm hp hu
    · exact .host _ (.inr ⟨i, rfl⟩)
  | rd w off name =>
    exact onReply_read_effect (k := fun v => m.advance rest (setVar name (.num v) m.vars)) (hr rfl) h
  | poll =>
    exact onReply_read_effect (off := 0x024) (n := 4) (line := line) (m := m)
      (k := fun v => m.advance (if v.getLsbD 0 then m.prog else rest) (setVar "s" (.num v) m.vars)) (hr rfl) h
  | startBytes name => cases h; exact .host _ (.inr ⟨i, rfl⟩)
  | rdAppend w off name =>
    exact onReply_read_effect
      (k := fun v => m.advance rest
        (setVar name (.bytes (varBytes name m.vars ++ toLanes (widthBytes w) v)) m.vars)) (hr rfl) h

/-- The turn of a master that has an instruction to run, with RESET low, is that instruction. -/
theorem masterTurn_of_running {i line : Nat} {hi : HostInstr} {rest : List (Nat × HostInstr)} {m : Master} {s : State}
    (hr : s.rst = false) (hm : s.masters[i]? = some m) (hs : m.stopped = none) (hp : m.prog = (line, hi) :: rest) :
    masterTurn i s = runHostInstr hi i line rest m s := by simp [masterTurn, hr, hm, hs, hp]

theorem masterTurn_effect {i : Nat} {s t : State} (h : masterTurn i s = .next t) : TurnEffect (.master i) s t := by
  unfold masterTurn at h
  split at h
  · cases h; exact .host s.masters (.inr ⟨i, rfl⟩)
  · rename_i m hm
    split at h
    iterate 2 cases h; exact .host s.masters (.inr ⟨i, rfl⟩)
    rename_i hp
    split_ifs at h with hc
    exact runHostInstr_effect (fun ha => by simpa [ha] using hc) hm hp h

theorem seqTurn_effect {s t : State} (h : seqTurn s = .next t) : TurnEffect .seq s t := by
  unfold seqTurn at h
  split at h
  · cases h; exact .host s.masters (.inl rfl)
  · rename_i hr
    have hr' : s.rst = false := by simpa using hr
    split at h
    · rename_i hq
      cases h
      exact .endInit rfl hr' hq
    · cases h; exact .host s.masters (.inl rfl)
    · rename_i hq
      exact .completion t rfl hr' hq h

theorem takeTurn_effect {k : Turn} {s t : State} (h : takeTurn k s = .next t) : TurnEffect k s t := by
  cases k with
  | seq => exact seqTurn_effect h
  | master i => exact masterTurn_effect h
  | assertReset => cases h; exact .assertReset rfl
  | releaseReset =>
    cases h
    cases hr : s.rst
    · rw [releaseReset_of_not_rst s hr]
      exact .releaseLow rfl hr
    · rw [releaseReset_of_rst s hr]
      exact .releaseReset rfl hr
  | enginePin b => cases h; exact .enginePin b rfl

/-- Every step that answers a next state has one of the effects of `TurnEffect`. -/
theorem step_effect {s t : State} (h : step s = .next t) : TurnEffect (nextTurn s).1 (nextTurn s).2 t :=
  takeTurn_effect h

/-- Taking a turn off the schedule changes the schedule alone. -/
theorem nextTurn_state (s : State) : ∃ ts, (nextTurn s).2 = { s with schedule := ts } := by
  unfold nextTurn
  split
  · exact ⟨s.schedule, rfl⟩
  · exact ⟨_, rfl⟩

theorem nextTurn_cons {s : State} {k : Turn} {ts : List Turn} (h : s.schedule = k :: ts) :
    nextTurn s = (k, { s with schedule := ts }) := by simp [nextTurn, h]

theorem step_cons {s : State} {k : Turn} {ts : List Turn} (h : s.schedule = k :: ts) :
    step s = takeTurn k { s with schedule := ts } := by simp [step, nextTurn_cons h]

end Sys2Proof.Machine
end

