-- ==== Sys2Proof/Tests/Slice0.lean ====
section
/-! SUPPORT. The model's own tests. Expected values are the spec's: its encodings (30_encoding R74) and the vectors of
95_test_vectors, named V-…. The last part shows for each obligation that its hypotheses can be met. -/

namespace Sys2Proof.Tests

open Sys2Proof.Machine Sys2Proof.Claims

/-! ### Small states -/

/-- The `n` bytes of a number, most significant first. -/
def hex (n v : Nat) : Bytes := (List.range n).map fun k => BitVec.ofNat 8 (v >>> (8 * (n - 1 - k)))

/-- The bytes 0, 1, 2, … of the vectors. -/
def counting (n : Nat) : Bytes := (List.range n).map (BitVec.ofNat 8)

/-- Idle after INIT with ENGINE_PRESENT = 1: the start of every vector. -/
def idle : State := { State.resetWith true with seqState := .idle }

/-- The operands of V-T1 for a variant: CEK = 00.. of `n` bytes, IV = 00..0f, H = "hdr" at 0, IN = 16 zero bytes at 0x010,
OUT at 0x100. -/
def vt (variant : BitVec 2) (n : Nat) : State :=
  { idle with
    ops := { idle.ops with
      ctrl := { variant := variant, alMode := .authInput, aadp := false, ie := false }
      cekLen := BitVec.ofNat 7 n, hdrLen := 3, inOff := 0x010, inLen := 16, outOff := 0x100 }
    win := { idle.win with cekw := windowOf 64 (counting n), ivw := windowOf 16 (counting 16) }
    ram := [(0, 0x68), (1, 0x64), (2, 0x72)] }

/-- `s` with an AAD of `n` bytes at 0x020. -/
def withAad (mode : AlMode) (n : BitVec 16) (s : State) : State :=
  { s with ops := { s.ops with
      ctrl := { s.ops.ctrl with aadp := true, alMode := mode }, aadOff := 0x020, aadLen := n } }

/-- `s` with a supplied tag and its declared length. -/
def withTag (tag : Bytes) (n : BitVec 6) (s : State) : State :=
  { s with ops := { s.ops with tagInLen := n }, win := { s.win with tagInw := windowOf 32 tag } }

/-- `s` with the input at `off` of `n` bytes. -/
def withIn (off n : BitVec 16) (s : State) : State := { s with ops := { s.ops with inOff := off, inLen := n } }

/-- `s` with the output at `off`. -/
def withOut (off : BitVec 16) (s : State) : State := { s with ops := { s.ops with outOff := off } }

/-- The state an outcome goes to. -/
def stateOf (o : Outcome) : State :=
  match o with
  | .next t => t
  | .fault _ => idle
  | .refused _ => idle

def tagT1 : Bytes := hex 16 0x49e0b0902dcee943ad79fb778feafe3c

/-- A master with one instruction, in line 7. -/
def oneMaster (hi : HostInstr) : Master := { prog := [(7, hi)], vars := [], stopped := none }

/-- The next turn is that master's. -/
def withMaster (hi : HostInstr) (s : State) : State := { s with masters := [oneMaster hi], schedule := [.master 0] }

/-- V-T1's command in flight. -/
def busy : State := { vt 0 32 with seqState := .exec, pending := 3 }

/-! ### Well-formedness: an ill-formed term for each check, which the check refuses -/

theorem test_wf_instr :
    (Instr.illegalUpper 0 5).wf = false ∧ (Instr.illegalUpper 1 5).wf = true ∧ (Instr.reserved8F 7).wf = true ∧
    (Instr.reserved67 0).isMnemonic = false ∧ (Instr.reserved8F 0).isMnemonic = false ∧
    (Instr.illegalUpper 1 1).isMnemonic = false ∧ Instr.zeroize.isMnemonic = true := by decide

theorem test_wf_hostInstr :
    (HostInstr.wr .w32 0x2001 0).wf = false ∧ (HostInstr.rd .w8 0x2001 "x").wf = false ∧
    (HostInstr.rdAppend .w32 0x2001 "x").wf = false ∧ (HostInstr.wr .w8 0x2000 0).wf = true := by decide

theorem test_wf_line_access :
    (Line.wr32 0x2001 0).wf = false ∧ (Line.wr16 0x2001 0).wf = false ∧ (Line.wr16 0 0x10000).wf = false ∧
    (Line.wr8 0x2001 0).wf = false ∧ (Line.wr8 0 0x100).wf = false ∧ (Line.rd32 0x2001 "x").wf = false ∧
    (Line.rd16 0x2001 "x").wf = false ∧ (Line.rd8 0x2001 "x").wf = false ∧ (Line.wr8 0x2000 0xFF).wf = true := by decide

theorem test_wf_line_pseudo :
    (Line.issue (.reserved67 0)).wf = false ∧ (Line.run (.illegalUpper 1 0)).wf = false ∧
    (Line.wrbytes 0x1002 [1]).wf = false ∧ (Line.wrbytes 0x1FFC [1, 2, 3, 4, 5]).wf = false ∧
    (Line.rdbytes 0x1002 4 "x").wf = false ∧ (Line.rdbytes 0x1FFC 5 "x").wf = false ∧ (Line.issue .enc).wf = true := by
  decide

/-! ### Decoding: words written out from 30_encoding R74 -/

theorem test_decode_commands :
    decode 0b00000000000000000000000000000000 = .nop ∧ decode 0b00000000000000000000000000000001 = .enc ∧
    decode 0b00000000000000000000000000000010 = .dec ∧ decode 0b00000000000000000000000000000011 = .tag ∧
    decode 0b00000000000000000000000000000100 = .verify ∧ decode 0b00000000000000000000000000000101 = .zeroize := by
  decide

theorem test_decode_illegal :
    decode 0b00000000000000000000000000000110 = .reserved67 0 ∧ decode 0b00000000000000000000000000000111 = .reserved67 1 ∧
    decode 0b00000000000000000000000000001000 = .reserved8F 0 ∧ decode 0b00000000000000000000000000001111 = .reserved8F 7 ∧
    decode 0b00000000000000000000000000010000 = .illegalUpper 1 0 ∧
    decode 0b10000000000000000000000000000001 = .illegalUpper 0x8000000 1 := by decide

theorem test_decodeTableWord :
    decodeTableWord 32 1 = some .enc ∧ decodeTableWord 32 0x1F = some (.illegalUpper 1 15) ∧
    decodeTableWord 8 0x105 = some .zeroize := by decide

theorem test_decodeBytes_truncated : decodeBytes [1, 0, 0] = .error .truncated ∧
    decodeBytes [3, 0, 0, 0, 9] = .ok (.tag, [9]) := ⟨rfl, by decide⟩

/-! ### Hashes and the tag protocol -/

/-- V-H1 -/
theorem test_sha256_abc : sha256 [0x61, 0x62, 0x63] =
    hex 32 0xba7816bf8f01cfea414140de5dae2223b00361a396177a9cb410ff61f20015ad := by decide +kernel

/-- V-H2 -/
theorem test_sha384_abc : sha384 [0x61, 0x62, 0x63] =
    hex 48 0xcb00753f45a35e8bb5a03d699ac65007272c32ab0eded1631a8b605a43ff5bed8086072ba1e7cc2358baeca134c825a7 := by
  decide +kernel

/-- V-H3 -/
theorem test_sha512_abc : sha512 [0x61, 0x62, 0x63] =
    hex 32 0xddaf35a193617abacc417349ae20413112e6fa4e89a97ea20a9eeee64b55d39a ++
    hex 32 0x2192992a274fc1a836ba3c23a3feebbd454d4423643ce80e2a9ac94fa54ca49f := by decide +kernel

/-- V-M1: a key shorter than the block -/
theorem test_hmac_jefe : hmac { hash := .sha256, dlen := 32, cekBytes := 32, halfBytes := 16, tlen := 16, blk := 64 }
    [0x4a, 0x65, 0x66, 0x65] (hex 28 0x7768617420646f2079612077616e7420666f72206e6f7468696e673f) =
    hex 32 0x5bdcc146bf60754e6a042426089575c75a003f089d2739839dec58b964ec3843 := by decide +kernel

/-- V-A1 to V-A6 -/
theorem test_al :
    alField .authInput [1, 2, 3] none = [0, 0, 0, 0, 0, 0, 0, 0x18] ∧
    alField .authInput [1, 2, 3] (some []) = [0, 0, 0, 0, 0, 0, 0, 0x20] ∧
    alField .headerOnly [1, 2, 3] (some [4, 5]) = [0, 0, 0, 0, 0, 0, 0, 0x18] ∧
    alField .authInput (zeros 42) none = [0, 0, 0, 0, 0, 0, 1, 0x50] ∧
    alField .headerOnly [] (some []) = zeros 8 ∧ authInput [1] (some [2]) = [1, 0x2E, 2] := by decide

/-- V-C2, V-C3, V-C4 -/
theorem test_ctEq_bytes :
    ctEq tagT1 16 (tagT1 ++ List.replicate 16 0xFF) 16 = true ∧
    ctEq tagT1 16 (tagT1.set 15 0x3d ++ zeros 16) 16 = false ∧ ctEq tagT1 16 (tagT1.set 0 0xc9 ++ zeros 16) 16 = false := by
  decide +kernel

/-- V-C5 to V-C8 -/
theorem test_ctEq_length :
    ctEq tagT1 16 (tagT1 ++ zeros 16) 17 = false ∧ ctEq tagT1 16 (tagT1 ++ zeros 16) 0 = false ∧
    ctEq tagT1 16 (tagT1 ++ zeros 16) 33 = false ∧ ctEq tagT1 16 (tagT1 ++ zeros 16) 15 = false := by decide +kernel

/-- 60_exceptions R139, the values of 95_test_vectors 3.7 -/
theorem test_inRam :
    inRam 4096 0 = true ∧ inRam 4095 1 = true ∧ inRam 0 4096 = true ∧ inRam 4095 2 = false ∧ inRam 4097 0 = false ∧
    inRam 0xFFFF 0xFFFF = false := by decide

/-! ### Commands -/

/-- V-T5: the AAD "xy" with ALMODE 1 -/
theorem test_tag_header_only :
    let t := stateOf (exec .tag (withAad .headerOnly 2 { vt 0 32 with
      ram := [(0, 0x68), (1, 0x64), (2, 0x72), (0x20, 0x78), (0x21, 0x79)] }))
    t.out.tagOutw.toList = hex 16 0x2be4dbd247abb437caf7e91aa46f7a35 ++ zeros 16 ∧ t.out.tagOutLen = 16 ∧
    statusWord t = 0x12 ∧ t.out.outLen = 0 ∧ t.win = .zero := by decide +kernel

/-- V-T7 -/
theorem test_tag_sha512 :
    (stateOf (exec .tag (vt 2 64))).out.tagOutw.toList =
      hex 32 0x04d1682389eeda51d653a276dfc37e5a9ae4ca23ab5d00ce2a43a918222109be := by decide +kernel

/-- V-V2: the bytes past the tag do not matter -/
theorem test_verify_match :
    let t := stateOf (exec .verify (withTag (tagT1 ++ List.replicate 16 0xFF) 16 (vt 0 32)))
    statusWord t = 0x1A ∧ t.out = .zero ∧ t.ram = (vt 0 32).ram := by decide +kernel

/-- V-V3: TAGINLEN 17 -/
theorem test_verify_wrong_length :
    statusWord (stateOf (exec .verify (withTag tagT1 17 (vt 0 32)))) = 0x116 := by decide +kernel

/-- V-E1: the empty plaintext -/
theorem test_enc_empty :
    let t := stateOf (execEncWith (refEngine aes) (withIn 0x010 0 (vt 0 32)))
    Memory.readBytes t.ram 0x100 16 = hex 16 0xb7ad78216c5569d6da1aab87f6dbc561 ∧
    t.out.tagOutw.toList = hex 16 0x3177b613caa68eb2a4508d1ff69ae3fd ++ zeros 16 ∧
    statusWord t = 0x12 ∧ t.out.outLen = 16 ∧ t.win = .zero := by decide +kernel

/-- V-R7: the output region is checked for the padded length -/
theorem test_enc_range :
    statusWord (stateOf (exec .enc (withOut 0xFF0 (vt 0 32)))) = 0x716 := by decide +kernel

/-- V-D2: full padding gives the empty plaintext; and an engine's plaintext of two bytes goes to OUT_OFF -/
theorem test_dec_match :
    let s := withTag (hex 16 0x3177b613caa68eb2a4508d1ff69ae3fd) 16 { vt 0 32 with
      ram := Memory.writeBytes (vt 0 32).ram 0x010 (hex 16 0xb7ad78216c5569d6da1aab87f6dbc561) }
    let t := stateOf (execDecWith (refEngine aes) s)
    let u := stateOf (execDecWith (fun _ _ _ _ => .ok [7, 8]) s)
    statusWord t = 0x1A ∧ t.out.outLen = 0 ∧ t.ram = s.ram ∧ u.out.outLen = 2 ∧
    Memory.readBytes u.ram 0x100 3 = [7, 8, 0] := by decide +kernel

/-- V-D6: the tag matches and the engine fails -/
theorem test_dec_engine_failure :
    let s := withTag tagT1 16 (vt 0 32)
    let t := stateOf (execDecWith (refEngine aes) s)
    statusWord t = 0x31E ∧ t.out = .zero ∧ t.ram = s.ram := by decide +kernel

/-- V-N1, V-N2 -/
theorem test_nop :
    statusWord (stateOf (exec .nop (vt 0 32))) = 0x12 ∧ (stateOf (exec .nop (vt 0 32))).win = (vt 0 32).win ∧
    statusWord (stateOf (exec .nop { vt 0 32 with engRdy := false })) = 0x02 := by decide

/-- V-Z1, V-Z2 -/
theorem test_zeroize :
    let t := stateOf (exec .zeroize (withTag tagT1 16 (vt 0 32)))
    statusWord t = 0x12 ∧ t.ram = [] ∧ t.win = .zero ∧ t.ops.tagInLen = 16 ∧
    statusWord (stateOf (exec .zeroize { vt 3 32 with engRdy := false })) = 0x02 := by decide +kernel

/-- V-I1, V-I2, V-I3, V-X5 -/
theorem test_illegal :
    statusWord (stateOf (exec (.reserved67 0) (vt 0 32))) = 0x516 ∧
    statusWord (stateOf (exec (.reserved8F 7) { vt 0 32 with engRdy := false })) = 0x506 ∧
    statusWord (stateOf (exec (.illegalUpper 1 0) (vt 0 32))) = 0x516 ∧
    (stateOf (exec (.reserved67 0) (vt 0 32))).ram = (vt 0 32).ram := by decide +kernel

/-- V-X1 to V-X4 -/
theorem test_precheck_order :
    statusWord (stateOf (exec .tag (vt 0 16))) = 0x216 ∧ statusWord (stateOf (exec .tag (vt 3 32))) = 0x616 ∧
    statusWord (stateOf (exec .tag { vt 3 0 with engRdy := false })) = 0x406 ∧
    statusWord (stateOf (exec .tag (withIn 0xFF0 0x20 (vt 0 16)))) = 0x216 ∧
    statusWord (stateOf (exec .tag (withIn 0xFF0 0x20 (vt 0 32)))) = 0x716 := by decide +kernel

/-! ### The bus -/

/-- The state a write leaves, the same state where it is not answered. -/
def wrote (off n : Nat) (v : Word) (s : State) : State :=
  match busWrite off n v s with
  | .ok t => t
  | .busError => s
  | .notDecoded => s

/-- V-B1, V-B2, V-B3, V-B4 -/
theorem test_bus_lanes :
    (wrote 0x100 4 0x03020100 idle).win.cekw.toList.take 4 = [0, 1, 2, 3] ∧
    readValue (busRead 0x100 4 (wrote 0x100 4 0x03020100 idle)) = some 0 ∧
    readValue (busRead 0x1002 1 (wrote 0x1000 4 0x00726468 idle)) = some 0x72 ∧
    readValue (busRead 0x1000 2 (wrote 0x1000 4 0x00726468 idle)) = some 0x6468 := by decide +kernel

/-- V-B5 to V-B9 -/
theorem test_bus_errors :
    busRead 0x024 2 idle = .busError ∧ busWrite 0x1002 4 0 idle = .busError ∧ busRead 0x054 4 idle = .busError ∧
    busRead 0x150 1 idle = .busError ∧ busRead 0x2000 4 idle = .busError := ⟨rfl, rfl, rfl, rfl, rfl⟩

/-- 20_memory R50: past the window, and below BLOCK_BASE, HAUTH decodes nothing; VERSION stands at BLOCK_BASE + 4. -/
theorem test_window :
    busRead 0x2001 1 idle = .notDecoded ∧ (∀ addr, addr < Config.blockBase → memRead addr 4 idle = .notDecoded) ∧
    memWrite (Config.blockBase + 0xFFFC) 4 0 idle = .notDecoded ∧
    memRead (Config.blockBase + 0x004) 4 idle = .ok (1, idle) := by
  refine ⟨rfl, fun addr h => by simp [memRead, h], ?_, ?_⟩
  · rw [memWrite_blockBase_add]
    rfl
  · rw [memRead_blockBase_add]
    rfl

/-- V-B10 to V-B14, and the CTRL write of 95_test_vectors 3.1 -/
theorem test_bus_fields :
    wrote 0x00C 4 5 idle = idle ∧ readValue (busRead 0x020 4 idle) = some 0 ∧
    readValue (busRead 0x028 4 (wrote 0x028 4 0xFFFFFFFF idle)) = some 0x7F ∧
    readValue (busRead 0x02C 4 (wrote 0x02C 4 0xFFFFFFFF idle)) = some 0x3F ∧
    readValue (busRead 0x030 4 (wrote 0x030 4 0x12345678 idle)) = some 0x5678 ∧
    readValue (busRead 0x008 4 (wrote 0x008 4 0xFFFFFFFF idle)) = some 0x00010113 := by decide +kernel

/-- V-W1, V-W3, V-W4, V-W5 -/
theorem test_status_writes :
    statusWord (wrote 0x024 4 0x06 (stateOf (exec .tag (vt 0 16)))) = 0x210 ∧
    statusWord (wrote 0x024 4 0xFFFFFFFF (stateOf (exec .nop idle))) = 0x10 ∧
    wrote 0x044 4 5 busy = { busy with flags := { busy.flags with ovr := true } } ∧
    wrote 0x024 4 0x20 (wrote 0x044 4 5 busy) = busy := by decide +kernel

/-- V-RS1, V-RS2 -/
theorem test_reset_status :
    statusWord (State.resetWith true) = 0x11 ∧ statusWord (endInit (State.resetWith true)) = 0x10 ∧
    statusWord (State.resetWith false) = 0x01 ∧ statusWord (endInit (State.resetWith false)) = 0x00 := by decide

/-- The line encodings of program P1: lines 4 and 11's last writes, and line 13 -/
theorem test_expand :
    (expandLine (.wrbytes 0x100 (counting 32))).take 1 = [.wr .w32 0x100 0x03020100] ∧
    expandLine (.wrbytes 0x1024 [0x6b, 0x68, 0x6f, 0x66, 0x66, 0x73]) =
      [.wr .w32 0x1024 0x666F686B, .wr .w8 0x1028 0x66, .wr .w8 0x1029 0x73] ∧
    expandLine (.run .enc) = [.wr .w32 0x020 1, .poll] ∧ expandLine (.cfg 0 false true false) = [.wr .w32 0x008 0x100] := by
  decide +kernel

/-! ### The step -/

/-- The host's probe: the very next step runs the word. -/
theorem test_withFetchWord :
    step (State.reset.withFetchWord 32 5) = exec .zeroize { State.reset with pending := 5, seqState := .exec } := rfl

/-- From reset with nothing placed, one step ends INIT. -/
theorem test_reset_step : step State.reset = .next (endInit State.reset) := rfl

/-- A bus error stops its master in its line (30_encoding R79); here V-B6's write. -/
theorem test_bus_error_stops :
    (stateOf (step (withMaster (.wr .w32 0x1002 0) idle))).masters =
      [{ oneMaster (.wr .w32 0x1002 0) with stopped := some 7 }] := by decide +kernel

/-- An access past the window is refused by name (20_memory R50). -/
theorem test_past_window_refused :
    step (withMaster (.rd .w8 0x2001 "x") idle) = .refused .outsideWindow := rfl

/-! ### Witnesses: each obligation's hypotheses met together, clause by clause -/

/-- A clean idle state satisfies the invariant. -/
theorem idle_inv : idle.Inv where
  ram_wf := by decide
  busy_quiet := fun h => absurd rfl h
  init_reset := fun h => by cases h
  reset_held := fun h => by cases h
  err_has_code := fun h => by cases h
  error_no_output := fun h => absurd rfl h
  authOk_code := fun h => by cases h
  tagOutLen_legal := by decide
  tagOut_tail := fun i _ => getD_replicate_zero 32 i

theorem test_witness_EveryStepKeepsInvariant : idle.Inv ∧ ∃ t, step idle = .next t := ⟨idle_inv, _, rfl⟩

theorem test_witness_StepRunsPendingCommand :
    (∃ ts, { busy with schedule := [.seq] }.schedule = .seq :: ts) ∧ busy.rst = false ∧ busy.seqState = .exec ∧
    busy.schedule = [] := ⟨⟨[], rfl⟩, rfl, rfl, rfl⟩

/-- One state for each transition: INIT to IDLE, IDLE to EXEC, EXEC to IDLE, and RESET asserted and released. -/
theorem test_witness_SeqStateTransitions :
    (∃ t, step (State.resetWith true) = .next t ∧ t.seqState = .idle) ∧
    (∃ t, step (withMaster (.wr .w32 0x020 0) idle) = .next t ∧ t.seqState = .exec) ∧
    (∃ t, step busy = .next t ∧ t.seqState = .idle) ∧
    (∃ t, step { busy with schedule := [.assertReset] } = .next t ∧ t.seqState = .init) ∧
    (∃ t, step { busy with schedule := [.releaseReset], rst := true } = .next t ∧ t.seqState = .init) :=
  ⟨⟨_, rfl, rfl⟩, ⟨_, rfl, rfl⟩, ⟨_, rfl, rfl⟩, ⟨_, rfl, rfl⟩, ⟨_, rfl, rfl⟩⟩

/-- ENGRDY changes where the pin has changed before a reset. -/
theorem test_witness_EngineReadyChangesOnlyInReset :
    (∃ t, step { idle with schedule := [.assertReset], enginePresent := false } = .next t ∧ t.engRdy = false) ∧
    ∃ t, step { idle with schedule := [.enginePin false] } = .next t ∧ t.engRdy = true :=
  ⟨⟨_, rfl, rfl⟩, ⟨_, rfl, rfl⟩⟩

/-- `idle` with OVR set. -/
def overrun : State := { idle with flags := { idle.flags with ovr := true } }

theorem test_witness_OverrunIsSticky :
    overrun.flags.ovr = true ∧ (∃ t, step (withMaster (.wr .w32 0x024 0x20) overrun) = .next t ∧ t.flags.ovr = false) ∧
    (∃ t, step { overrun with schedule := [.assertReset] } = .next t ∧ t.flags.ovr = false) ∧
    ∃ t, step { overrun with schedule := [.releaseReset], rst := true } = .next t ∧ t.flags.ovr = false :=
  ⟨rfl, ⟨_, rfl, rfl⟩, ⟨_, rfl, rfl⟩, ⟨_, rfl, rfl⟩⟩

theorem test_witness_resets :
    (∃ ts, { busy with schedule := [.assertReset] }.schedule = .assertReset :: ts) ∧
    (∃ ts t, { busy with schedule := [.releaseReset], rst := true }.schedule = .releaseReset :: ts ∧
      step { busy with schedule := [.releaseReset], rst := true } = .next t) ∧
    { busy with rst := true }.rst = true := ⟨⟨[], rfl⟩, ⟨[], _, rfl, rfl⟩, rfl⟩

/-- NothingRunsWhileResetIsAsserted, both clauses. -/
theorem test_witness_NothingRunsWhileResetIsAsserted :
    (∃ ts, { busy with schedule := [.seq], rst := true }.schedule = .seq :: ts) ∧
    MasterAt (withMaster .poll { busy with rst := true }) 0 (oneMaster .poll) 7 .poll [] [] ∧
    (withMaster .poll { busy with rst := true }).rst = true ∧ ∀ name, HostInstr.poll ≠ .startBytes name :=
  ⟨⟨[], rfl⟩, by unfold MasterAt; decide +kernel, rfl, by simp⟩

theorem test_witness_EndOfInitGoesIdle :
    (∃ ts, { State.resetWith true with schedule := [.seq] }.schedule = .seq :: ts) ∧ (State.resetWith true).rst = false ∧
    (State.resetWith true).seqState = .init := ⟨⟨[], rfl⟩, rfl, rfl⟩

/-- DecodingFollowsTheOpcodeMap and the words of IllegalWordsComplete: each clause at the ends of its range. -/
theorem test_witness_DecodingFollowsTheOpcodeMap :
    (0x10 : Word).toNat / 16 ≠ 0 ∧ (0xFFFFFFFF : Word).toNat / 16 ≠ 0 ∧ (0 : Word).toNat = 0 ∧ (1 : Word).toNat = 1 ∧
    (2 : Word).toNat = 2 ∧ (3 : Word).toNat = 3 ∧ (4 : Word).toNat = 4 ∧ (5 : Word).toNat = 5 ∧ (6 : Word).toNat = 6 ∧
    (7 : Word).toNat = 7 ∧ (8 : Word).toNat = 8 ∧ (15 : Word).toNat = 15 := by decide

theorem test_witness_DecodeAndEncodeAgree : (Instr.illegalUpper 1 0).wf = true ∧ (Instr.reserved8F 7).wf = true := by decide

theorem test_witness_NopCompletes :
    (vt 0 32).engRdy = true ∧ (vt 0 32).flags.ovr = false ∧ ∃ t, exec .nop (issue 0 (vt 0 32)) = .next t :=
  ⟨rfl, rfl, _, rfl⟩

/-- The row of variant 0. -/
def par0 : Par := { hash := .sha256, dlen := 32, cekBytes := 32, halfBytes := 16, tlen := 16, blk := 64 }

/-- Passes of each command, ENC's and DEC's output regions ending exactly at the end of the RAM (V-R6, V-R9). -/
theorem test_witness_Passes :
    Passes .enc (withOut 0xFE0 (vt 0 32)) par0 ∧ Passes .dec (withOut 0xFF0 (vt 0 32)) par0 ∧
    Passes .tag (withAad .authInput 2 (vt 0 32)) par0 ∧ Passes .verify (vt 0 32) par0 := by
  unfold Passes; decide +kernel

/-- DecCompletes and VerifyCompletes: a tag that matches and one that does not, and so EngineIsGivenOnlyKeyIvAndData's
AUTH_FAIL. -/
theorem test_witness_TagMatches :
    TagMatches (withTag tagT1 16 (vt 0 32)) par0 ∧ ¬ TagMatches (withTag tagT1 15 (vt 0 32)) par0 := by
  unfold TagMatches; decide +kernel

/-- A check of Precheck fails: the engine's, the variant's, the key length's, and the range by one byte (V-R7). -/
theorem test_witness_PrecheckErrorsInOrder :
    { vt 0 32 with engRdy := false }.engRdy = false ∧ (vt 3 32).engRdy = true ∧ (vt 3 32).ops.ctrl.variant = 3 ∧
    par (vt 0 31).ops.ctrl.variant = some par0 ∧ (vt 0 31).ops.cekLen.toNat ≠ par0.cekBytes ∧
    (withOut 0xFE1 (vt 0 32)).ops.cekLen.toNat = par0.cekBytes ∧ ¬ Passes .enc (withOut 0xFE1 (vt 0 32)) par0 := by
  unfold Passes; decide +kernel

/-- The whole-machine statements about `exec i s = next t`, for each kind of `i` they tell apart. -/
theorem test_witness_exec (s : State) :
    (∃ t, exec .zeroize s = .next t) ∧ (∃ t, exec .enc s = .next t) ∧ (∃ t, exec .dec s = .next t) ∧
    (∃ t, exec .nop s = .next t) ∧ ∃ t, exec .tag s = .next t :=
  ⟨⟨_, rfl⟩, ⟨_, rfl⟩, ⟨_, rfl⟩, ⟨_, rfl⟩, ⟨_, rfl⟩⟩

/-- ErrorCompletionsArePrecise: an error of another command than DEC, and of another code than ENGINE_FAILURE. -/
theorem test_witness_ErrorCompletionsArePrecise :
    ∃ t, exec (.reserved67 0) idle = .next t ∧ t.flags.errCode = .illegalCmd := ⟨_, rfl, rfl⟩

/-- An engine that answers two blocks of zeros, and the state ENC reaches with it. -/
def zeroEngine : Engine := fun _ _ _ _ => .ok (zeros 32)

def encrypted : State := stateOf (execEncWith zeroEngine (vt 0 32))

theorem test_witness_EncLeavesTheCiphertextInRam :
    Memory.wf (vt 0 32).ram ∧ execEncWith zeroEngine (vt 0 32) = .next encrypted ∧ encrypted.flags.errCode = .none :=
  ⟨by decide, rfl, by decide +kernel⟩

/-- `encrypted` with the key and IV loaded again, and the output as the input: TAG's state of EncAndTagAgree. -/
def reloaded : State := withIn 0x100 32 { encrypted with win := (vt 0 32).win }

theorem test_witness_EncAndTagAgree :
    Passes .enc (vt 0 32) par0 ∧ SameKeyAndContext (vt 0 32) reloaded ∧ inputOf reloaded = outputOf encrypted ∧
    Passes .tag reloaded par0 := by
  unfold Passes SameKeyAndContext; decide +kernel

/-- The block cipher that does nothing. -/
def identityCipher : BlockCipher := { enc := fun _ x => x, dec := fun _ x => x }

theorem identityCipher_valid : identityCipher.Valid :=
  ⟨fun _ _ _ h => h, fun _ _ _ h => h, fun _ _ _ _ => rfl, fun _ _ _ _ => rfl⟩

def encryptedId : State := stateOf (execEncWith (refEngine identityCipher) (vt 0 32))

/-- `encryptedId` with the key, the IV and the tag loaded for DEC. -/
def reloadedId : State :=
  withTag (encryptedId.out.tagOutw.toList) 16 (withIn 0x100 32 { encryptedId with win := (vt 0 32).win })

theorem test_witness_EncThenDecRoundTrips :
    identityCipher.Valid ∧ Passes .enc (vt 0 32) par0 ∧ Memory.wf reloadedId.ram ∧
    SameKeyAndContext (vt 0 32) reloadedId ∧ inputOf reloadedId = outputOf encryptedId ∧
    reloadedId.win.tagInw = encryptedId.out.tagOutw ∧ reloadedId.ops.tagInLen = encryptedId.out.tagOutLen ∧
    Passes .dec reloadedId par0 := by
  refine ⟨identityCipher_valid, ?_⟩
  unfold Passes SameKeyAndContext; decide +kernel

/-- EngineIsGivenOnlyKeyIvAndData: two engines that differ, and agree on what the command asks. -/
theorem test_witness_EngineIsGivenOnlyKeyIvAndData :
    zeroEngine .enc (keySplit (cekOf (vt 0 32))).2 (ivOf (vt 0 32)) (inputOf (vt 0 32)) =
      (fun _ _ _ d => if d = zeros 16 then EngineReply.ok (zeros 32) else .fail : Engine)
        .enc (keySplit (cekOf (vt 0 32))).2 (ivOf (vt 0 32)) (inputOf (vt 0 32)) ∧
    ∃ t, execDecWith zeroEngine (vt 0 32) = .next t ∧ t.flags.errCode = .authFail :=
  ⟨by decide +kernel, _, rfl, by decide +kernel⟩

theorem test_witness_EncKeyHalfDoesNotEnterTheTag : ([1] : Bytes).length = ([2] : Bytes).length := rfl

/-- The statements over `par v = some p`, one for each variant; KeySplitBisectsTheCek's and CompareIsExactEquality's
lengths. -/
theorem test_witness_par :
    (0 : BitVec 2) ≠ 3 ∧ (2 : BitVec 2) ≠ 3 ∧ par 0 = some par0 ∧ (∃ p, par 1 = some p) ∧ (∃ p, par 2 = some p) ∧ (zeros 32).length = par0.cekBytes ∧
    tagT1.length = par0.tlen ∧ (tagT1 ++ zeros 16).length = 32 :=
  ⟨by decide, by decide, rfl, ⟨_, rfl⟩, ⟨_, rfl⟩, rfl, rfl, rfl⟩

/-- AlIsTheBigEndianBitLength at the longest header and AAD. -/
theorem test_witness_AlIsTheBigEndianBitLength :
    (zeros 0xFFFF).length ≤ 0xFFFF ∧ ∀ x, some (zeros 0xFFFF) = some x → x.length ≤ 0xFFFF :=
  ⟨(length_zeros _).le, fun x h => by cases h; exact (length_zeros _).le⟩

/-- CompareIsExactEquality's second clause: a declared length of 0, and of 33. -/
theorem test_witness_CompareIsExactEquality : (0 = 0 ∨ 32 < 0) ∧ (33 = 0 ∨ 32 < 33) := by decide

theorem test_witness_ReferenceEngineRoundTrips :
    identityCipher.Valid ∧ (zeros 16).length ∈ [16, 24, 32] ∧ (zeros 16).length = 16 :=
  ⟨identityCipher_valid, by decide, rfl⟩

/-- BusErrorsAreTheIllegalAccesses: both sides of each boundary, the window's end among them. -/
theorem test_witness_Illegal :
    Illegal 0x054 4 ∧ ¬ Illegal 0x050 4 ∧ Illegal 0x150 1 ∧ ¬ Illegal 0x14F 1 ∧ Illegal 0x1E0 4 ∧ ¬ Illegal 0x1DC 4 ∧
    Illegal 0xFFF 1 ∧ ¬ Illegal 0x1000 1 ∧ ¬ Illegal 0x1FFF 1 ∧ Illegal 0x2000 1 ∧ Illegal 0x024 2 ∧ Illegal 0x1002 4 ∧
    Illegal 0x1000 3 ∧ 0x2000 ≤ 0x2000 ∧ 0x2000 < 0x2001 := by
  simp [Illegal, Unmapped]

/-- BusErrorStopsOnlyItsMaster: an illegal access of each kind, the last at the window's end; and one past it. -/
theorem test_witness_BusErrorStopsOnlyItsMaster :
    (∀ hi : HostInstr, MasterAt (withMaster hi idle) 0 (oneMaster hi) 7 hi [] []) ∧ (∀ hi, (withMaster hi idle).rst = false) ∧
    Illegal 0x1002 (widthBytes .w32) ∧ Illegal 0x024 (widthBytes .w16) ∧ Illegal 0x2000 (widthBytes .w8) ∧
    0x2000 < 0x2001 :=
  ⟨fun _ => ⟨rfl, rfl, rfl, rfl⟩, fun _ => rfl, by simp [Illegal, Unmapped, widthBytes], by simp [Illegal, widthBytes],
    by simp [Illegal, Unmapped, widthBytes], by decide⟩

/-- BusErrorStopsOnlyItsMaster, an answered access of each kind, a variable that holds a byte string and one that does not;
its first turn of rdbytes needs `MasterAt` alone. -/
theorem test_witness_BusErrorStopsOnlyItsMaster_answered :
    (∃ t, busWrite 0x1000 (widthBytes .w32) 5 { withMaster (.wr .w32 0x1000 5) idle with schedule := [] } = .ok t) ∧
    (∃ x t, busRead 0x024 (widthBytes .w32) { withMaster (.rd .w32 0x024 "x") idle with schedule := [] } = .ok (x, t)) ∧
    (∃ x t, busRead 0x1FFF (widthBytes .w8) { withMaster (.rdAppend .w8 0x1FFF "x") idle with schedule := [] } =
      .ok (x, t)) ∧
    HoldsBytes { oneMaster .poll with vars := [("x", .bytes [1])] } "x" [1] ∧ HoldsBytes (oneMaster .poll) "x" [] :=
  ⟨⟨_, rfl⟩, ⟨_, _, rfl⟩, ⟨_, _, rfl⟩, .inl rfl, .inr ⟨rfl, fun _ h => nomatch h⟩⟩

theorem test_witness_ReadsHaveNoSideEffect :
    (∃ v, busRead 0x1000 4 idle = .ok (v, idle)) ∧ idle.seqState = .idle ∧ (∃ v, busRead 0x1DC 4 busy = .ok (v, busy)) ∧
    ∃ v t, busRead 0x1000 4 busy = .ok (v, t) := ⟨⟨_, rfl⟩, rfl, ⟨_, rfl⟩, ⟨_, _, rfl⟩⟩

theorem test_witness_ParameterRegistersFollowTheVariant :
    (vt 0 32).ops.ctrl.variant = 0 ∧ (vt 1 48).ops.ctrl.variant = 1 ∧ (vt 2 64).ops.ctrl.variant = 2 ∧
    (vt 3 32).ops.ctrl.variant = 3 := by decide

/-- The statements over idle and over busy states. -/
theorem test_witness_idle_and_busy :
    idle.seqState = .idle ∧ busy.seqState ≠ .idle ∧ Memory.wf idle.ram := by decide

/-- OperandRegistersStoreTheirFields: the first and the last register, which differ; and HDR_OFF and AAD_OFF, each in the
field of its name (10_state R32, R33). -/
theorem test_witness_OperandRegistersStoreTheirFields :
    (∃ f ∈ operandFields, f.1 = 0x028) ∧ (∃ f ∈ operandFields, f.1 = 0x048) ∧ 0x028 ≠ 0x048 ∧
    (wrote 0x030 4 5 idle).ops.hdrOff = 5 ∧ (wrote 0x038 4 5 idle).ops.aadOff = 5 := by
  simp only [operandFields]
  refine ⟨⟨_, .head _, rfl⟩, ⟨_, List.mem_of_getElem? (i := 8) rfl, rfl⟩, by decide, by decide +kernel, by decide +kernel⟩

/-- IrqIsDoneAndEnabled, clause by clause. -/
theorem test_witness_IrqIsDoneAndEnabled :
    (∃ t, busWrite 0x024 4 0x02 idle = .ok t) ∧ (0x02 : Word).getLsbD 1 = true ∧
    (∃ t, busWrite 0x008 4 0xFFFEFFFF idle = .ok t) ∧ (0xFFFEFFFF : Word).getLsbD 16 = false ∧
    (∃ t, busWrite 0x020 4 3 idle = .ok t) ∧ ∃ t, exec .nop idle = .next t :=
  ⟨⟨_, rfl⟩, by decide, ⟨_, rfl⟩, by decide, ⟨_, rfl⟩, ⟨_, rfl⟩⟩

/-- BusyWritesAreIgnored: a legal write of another location, and of STATUS. -/
theorem test_witness_BusyWritesAreIgnored : ¬ Illegal 0x1FFE 2 ∧ ¬ Illegal 0x024 4 := by unfold Illegal Unmapped; decide

/-- Natural accesses at the first and the last index of each region. -/
theorem test_witness_Natural :
    Natural 0 4 32 ∧ Natural 28 4 32 ∧ Natural 31 1 32 ∧ Natural 0 2 64 ∧ Natural 63 1 64 ∧ Natural 14 2 16 ∧
    Natural 4092 4 4096 ∧ Natural 4095 1 4096 := by unfold Natural; decide

theorem test_witness_PollWaitsForNotBusy :
    MasterAt (withMaster .poll busy) 0 (oneMaster .poll) 7 .poll [] [] ∧ (withMaster .poll busy).rst = false := by
  unfold MasterAt; decide +kernel

theorem test_witness_WrbytesWritesItsBytes : 0xFFC % 4 = 0 ∧ 0xFFC + (counting 4).length ≤ 4096 := by decide

/-- StatusWordHasItsFields: every error code stands in some state. -/
theorem test_witness_StatusWordHasItsFields (c : ErrCode) :
    { idle with flags := { idle.flags with errCode := c } }.flags.errCode = c :=
  rfl

/-- PrecheckDependsOnNoSecret: two states that differ in TAGINLEN, a window, the RAM and a flag; and a command with an
error of its checks beside one without. -/
theorem test_witness_PrecheckDependsOnNoSecret :
    let s' := { withTag tagT1 15 (vt 0 32) with ram := [], flags := overrun.flags }
    s'.ops = { (vt 0 32).ops with tagInLen := s'.ops.tagInLen } ∧ s'.engRdy = (vt 0 32).engRdy ∧ s' ≠ vt 0 32 ∧
    checkOutcome .tag (vt 0 31) = .invalidKeyLength ∧ checkOutcome .tag (vt 0 32) = .none := by decide +kernel

end Sys2Proof.Tests
end

/-! PROOFS. The statements of 00_scope: the variant parameter set. -/

namespace Sys2Proof.Machine

theorem exists_par_of_ne_three {v : BitVec 2} (h : v ≠ 3) : ∃ p, par v = some p :=
  Option.ne_none_iff_exists'.mp (mt par_eq_none_iff.mp h)

/-- Settles O34: VARIANT 3 alone has no row, and each of the three rows has the relations and lengths of 00_scope R7. -/
theorem variantParametersAreRelated : Obligations.VariantParametersAreRelated := by
  refine ⟨par_eq_none_iff.mpr rfl, fun _ => exists_par_of_ne_three, fun v p h => ?_⟩
  rcases par_cases h with ⟨rfl, rfl⟩ | ⟨rfl, rfl⟩ | ⟨rfl, rfl⟩ <;> decide

end Sys2Proof.Machine

/-! PROOFS. What a bus write and a completion can do, said once for the statements about steps. -/

namespace Sys2Proof.Machine

theorem regAt_eq_status {off : Nat} (h : regAt off = some .status) : off = 0x024 := by
  unfold regAt at h
  split at h <;> simp_all

/-- STATUS is written by the 4-byte access at 0x024 and by no other (20_memory R57). -/
theorem legalAccess_status {off n : Nat} (h : legalAccess off n = true) (hr : regionAt off = .reg .status) :
    off = 0x024 ∧ n = 4 := by
  obtain rfl : n = 4 := by simp_all [legalAccess, widthOk]
  have ha := legalAccess_aligned h
  rcases regionAt_cases off with ⟨-, r, hreg, heq⟩ | hother
  · obtain rfl : r = .status := by simpa [hr, eq_comm] using heq
    have ho := regAt_eq_status hreg
    omega
  · simp [hr] at hother

/-- What an answered write of `n` bytes at `off` can make of the block, and when (20_memory R55, R60;
70_reset_and_hazards R162). -/
inductive WriteEffect (off n : Nat) (v : Word) (s : State) : State → Prop
  /-- STATUS, in every SEQSTATE -/
  | status (ho : off = 0x024) (hn : n = 4) : WriteEffect off n v s (writeStatus v s)
  /-- any other write while busy -/
  | ignored (hb : s.seqState ≠ .idle) : WriteEffect off n v s (ignoreWrite s)
  /-- a read-only location -/
  | nothing : WriteEffect off n v s s
  /-- CMD -/
  | issued (hi : s.seqState = .idle) : WriteEffect off n v s (issue v s)
  /-- CTRL or an operand register -/
  | operands (o : Operands) (hi : s.seqState = .idle) : WriteEffect off n v s { s with ops := o }
  /-- CEKW, IVW or TAGINW -/
  | windows (w : Windows) (hi : s.seqState = .idle) : WriteEffect off n v s { s with win := w }
  /-- the RAM -/
  | ram (i : Nat) (hi : s.seqState = .idle) (hb : i + n ≤ Config.msgRamBytes) :
      WriteEffect off n v s { s with ram := Memory.writeBytes s.ram i (toLanes n v) }

theorem busWrite_effect {off n : Nat} {v : Word} {s t : State} (h : busWrite off n v s = .ok t) :
    WriteEffect off n v s t := by
  obtain ⟨hl, ⟨hr, rfl⟩ | ⟨-, hb, rfl⟩ | ⟨hr, hb, rfl⟩⟩ := busWrite_ok h
  · obtain ⟨ho, hn⟩ := legalAccess_status hl hr
    exact .status ho hn
  · exact .ignored ((busy_iff s).1 hb)
  · have hi := (busy_eq_false s).1 hb
    rcases writeRegion_cases (regionAt off) n v s hr with h | ⟨-, h⟩ | ⟨o, h⟩ | ⟨w, h⟩ | ⟨i, hram, h⟩ <;> rw [h]
    · exact .nothing
    · exact .issued hi
    · exact .operands o hi
    · exact .windows w hi
    · exact .ram i hi (legalAccess_ram hl hram)

/-- Every completion commits a good Result; what it leaves in the host-loaded windows depends on the command
(43_control_ops R130). -/
theorem exec_next {i : Instr} {s t : State} (h : exec i s = .next t) :
    ∃ r w, Result.Good r ∧ t = { completeKeeping r s with win := w } := by
  obtain ⟨r, hr, ⟨-, he⟩ | ⟨-, he⟩⟩ := exec_cases i s <;> rw [he] at h <;> cases h
  · exact ⟨r, .zero, hr, rfl⟩
  · exact ⟨r, s.win, hr, rfl⟩

/-- A step's effect, on the state with its schedule moved on. -/
theorem step_effect_schedule {s t : State} (h : step s = .next t) :
    ∃ ts, TurnEffect (nextTurn s).1 { s with schedule := ts } t := by
  obtain ⟨ts, hts⟩ := nextTurn_state s
  exact ⟨ts, hts ▸ step_effect h⟩

end Sys2Proof.Machine

/-! PROOFS. The invariant (State.Inv): it holds at reset, and each kind of turn keeps it. -/

namespace Sys2Proof.Machine

/-- A block at its reset values satisfies the invariant, whatever its pins and the host side. -/
theorem State.inv_of_reset {s : State} (hops : s.ops = .reset) (hwin : s.win = .zero) (hout : s.out = .zero)
    (hflags : s.flags = .reset) (hram : s.ram = []) (hseq : s.seqState = .init) (hpend : s.pending = 0) : s.Inv where
  ram_wf := hram ▸ Memory.wf_nil
  busy_quiet _ := by simp [hflags, Flags.reset, hout]
  init_reset _ := ⟨hops, hwin, hram, hpend⟩
  reset_held _ := hseq
  err_has_code := by simp [hflags, Flags.reset]
  error_no_output _ := hout
  authOk_code := by simp [hflags, Flags.reset]
  tagOutLen_legal := by simp [hout, Outputs.zero]
  tagOut_tail i _ := by rw [hout]; exact getD_replicate_zero 32 i

/-- The invariant does not speak of the host side, of the pin ENGINE_PRESENT or of the draw counter. -/
theorem State.Inv.host {s : State} (h : s.Inv) (present : Bool) (draws : Nat) (ms : List Master) (ts : List Turn) :
    State.Inv { s with enginePresent := present, draws := draws, masters := ms, schedule := ts } :=
  ⟨h.ram_wf, h.busy_quiet, h.init_reset, h.reset_held, h.err_has_code, h.error_no_output, h.authOk_code,
    h.tagOutLen_legal, h.tagOut_tail⟩

/-- STATUS writes and ignored writes keep the invariant: they leave AUTHOK and ERRCODE, and set neither DONE nor ERR. -/
theorem State.Inv.flags {s : State} (h : s.Inv) {f : Flags} (hdone : f.done = true → s.flags.done = true)
    (herr : f.err = true → s.flags.err = true) (hauth : f.authOk = s.flags.authOk)
    (hcode : f.errCode = s.flags.errCode) : State.Inv { s with flags := f } where
  ram_wf := h.ram_wf
  busy_quiet hb := by
    obtain ⟨hd, he, ha, hc, ho⟩ := h.busy_quiet hb
    exact ⟨by simpa [hd] using hdone, by simpa [he] using herr, hauth.trans ha, hcode.trans hc, ho⟩
  init_reset := h.init_reset
  reset_held := h.reset_held
  err_has_code he := hcode ▸ h.err_has_code (herr he)
  error_no_output hc := h.error_no_output (hcode ▸ hc)
  authOk_code ha := by simpa [hcode] using h.authOk_code (hauth ▸ ha)
  tagOutLen_legal := h.tagOutLen_legal
  tagOut_tail := h.tagOut_tail

/-- In IDLE the host-written state is free but for the RAM's canonical form (20_memory R55). -/
theorem State.Inv.idle_write {s : State} (h : s.Inv) (hi : s.seqState = .idle) (o : Operands) (w : Windows)
    {m : Memory} (hm : Memory.wf m) : State.Inv { s with ops := o, win := w, ram := m } where
  ram_wf := hm
  busy_quiet hb := absurd hi hb
  init_reset hq := by simp [hi] at hq
  reset_held := h.reset_held
  err_has_code := h.err_has_code
  error_no_output := h.error_no_output
  authOk_code := h.authOk_code
  tagOutLen_legal := h.tagOutLen_legal
  tagOut_tail := h.tagOut_tail

/-- Issue clears every result, so that none shows while busy (43_control_ops R125). -/
theorem State.Inv.issue {s : State} (h : s.Inv) (hr : s.rst = false) (v : Word) : (issue v s).Inv where
  ram_wf := h.ram_wf
  busy_quiet _ := by simp
  init_reset hq := by simp at hq
  reset_held hrst := by simp [hr] at hrst
  err_has_code he := by simp at he
  error_no_output _ := rfl
  authOk_code ha := by simp at ha
  tagOutLen_legal := by simp [Outputs.zero]
  tagOut_tail i _ := getD_replicate_zero 32 i

/-- An answered write keeps the invariant, RESET being low. -/
theorem State.Inv.busWrite {off n : Nat} {v : Word} {s t : State} (h : s.Inv) (hr : s.rst = false)
    (hw : busWrite off n v s = .ok t) : t.Inv := by
  cases busWrite_effect hw with
  | status => exact h.flags (by simp +contextual) (by simp +contextual) rfl rfl
  | ignored => exact h.flags id id rfl rfl
  | nothing => exact h
  | issued => exact h.issue hr v
  | operands o hi => exact h.idle_write hi o s.win h.ram_wf
  | windows w hi => exact h.idle_write hi s.ops w h.ram_wf
  | ram i hi hb => exact h.idle_write hi s.ops s.win (Memory.writeBytes_wf h.ram_wf (by simpa using hb))

/-- A read moves the draw counter at most, so it keeps the invariant. -/
theorem State.Inv.busRead {off n : Nat} {v : Word} {s t : State} (h : s.Inv) (hb : busRead off n s = .ok (v, t)) :
    t.Inv := by
  obtain rfl | ⟨-, rfl⟩ := busRead_ok hb
  · exact h
  · exact h.host s.enginePresent (s.draws + n) s.masters s.schedule

/-- The end of INIT keeps the invariant: the outputs are already at their reset values (70_reset_and_hazards R159). -/
theorem State.Inv.endInit {s : State} (h : s.Inv) (hr : s.rst = false) (hq : s.seqState = .init) :
    (endInit s).Inv where
  ram_wf := Memory.wf_nil
  busy_quiet hb := absurd rfl hb
  init_reset hq' := by simp at hq'
  reset_held hrst := by simp [hr] at hrst
  err_has_code := h.err_has_code
  error_no_output hc := absurd (h.busy_quiet (by simp [hq])).2.2.2.1 hc
  authOk_code := h.authOk_code
  tagOutLen_legal := h.tagOutLen_legal
  tagOut_tail i _ := getD_replicate_zero 32 i

/-- A completion that commits a good Result keeps the invariant, whatever it leaves in the windows. -/
theorem State.Inv.completion {s : State} (h : s.Inv) (hr : s.rst = false) {r : Result} (hg : r.Good) (w : Windows) :
    State.Inv { completeKeeping r s with win := w } where
  ram_wf := Result.ramAfter_wf h.ram_wf hg.bounded
  busy_quiet hb := absurd rfl hb
  init_reset hq := by simp at hq
  reset_held hrst := by simp [hr] at hrst
  err_has_code := by simp
  error_no_output hc := by
    obtain ⟨-, -, hlen, htl, htag⟩ := hg.error_empty hc
    simp [hlen, htl, htag, Outputs.zero]
  authOk_code := hg.authOk_code
  tagOutLen_legal := hg.tagOutLen_legal
  tagOut_tail := hg.tagOut_tail

/-- Every turn keeps the invariant. -/
theorem TurnEffect.inv {k : Turn} {s t : State} (h : s.Inv) (he : TurnEffect k s t) : t.Inv := by
  cases he with
  | host ms => exact h.host s.enginePresent s.draws ms s.schedule
  | endInit _ hr hq => exact h.endInit hr hq
  | completion _ _ hr _ hx =>
    obtain ⟨r, w, hg, rfl⟩ := exec_next hx
    exact h.completion hr hg w
  | read u ms _ _ _ _ _ _ hb => exact (h.busRead hb).host u.enginePresent u.draws ms u.schedule
  | write u ms _ _ _ _ _ _ _ _ hr _ _ hb => exact (h.busWrite hr hb).host u.enginePresent u.draws ms u.schedule
  | assertReset => exact State.inv_of_reset rfl rfl rfl rfl rfl rfl rfl
  | releaseReset => exact State.inv_of_reset rfl rfl rfl rfl rfl rfl rfl
  | releaseLow => exact h
  | enginePin b => exact h.host b s.draws s.masters s.schedule

/-- Settles O3: taking a turn off the schedule keeps the invariant, and so does each effect a turn can have. -/
theorem everyStepKeepsInvariant : Obligations.EveryStepKeepsInvariant := by
  intro s t h hs
  obtain ⟨ts, he⟩ := step_effect_schedule hs
  exact he.inv (h.host s.enginePresent s.draws s.masters ts)

/-- Settles O2: every value of the block is its reset value. -/
theorem invariantHoldsAtReset : Obligations.InvariantHoldsAtReset :=
  State.inv_of_reset rfl rfl rfl rfl rfl rfl rfl

end Sys2Proof.Machine

/-! PROOFS. Where the fields of STATUS stand (10_state R29), and what a step can do to SEQSTATE, ENGRDY and OVR. -/

namespace Sys2Proof.Machine

/-! ### The STATUS word -/

/-- STATUS bit by bit. -/
theorem getLsbD_statusWord (s : State) (i : Nat) : (statusWord s).getLsbD i =
    match i with
    | 0 => s.busy
    | 1 => s.flags.done
    | 2 => s.flags.err
    | 3 => s.flags.authOk
    | 4 => s.engRdy
    | 5 => s.flags.ovr
    | 6 => false
    | 7 => false
    | k + 8 => s.flags.errCode.number.getLsbD k := by
  simp only [statusWord, BitVec.getLsbD_append]
  rcases i with _ | _ | _ | _ | _ | _ | _ | _ | k <;> simp [-BitVec.getLsbD_eq_getElem]
  exact BitVec.lt_of_getLsbD

theorem extractLsb'_statusWord (s : State) : (statusWord s).extractLsb' 8 4 = s.flags.errCode.number := by
  refine BitVec.eq_of_getLsbD_eq fun i hi => ?_
  rw [BitVec.getLsbD_extractLsb', Nat.add_comm, getLsbD_statusWord]
  simp [hi]

theorem statusWord_lt (s : State) : (statusWord s).toNat < 4096 := by
  refine Nat.lt_pow_two_of_testBit (n := 12) _ fun i hi => ?_
  obtain ⟨k, rfl⟩ := Nat.exists_eq_add_of_le' (show 8 ≤ i by omega)
  exact (getLsbD_statusWord s (k + 8)).trans (BitVec.getLsbD_of_ge _ _ (by omega))

/-! ### What an answered write leaves alone -/

section
variable {off n : Nat} {v : Word} {s t : State}

/-- A write moves SEQSTATE by issue alone, which clears DONE (43_control_ops R125). -/
theorem WriteEffect.seqState (h : WriteEffect off n v s t) :
    t.seqState = s.seqState ∨ (s.seqState = .idle ∧ t.seqState = .exec ∧ t.flags.done = false) := by
  cases h with
  | issued hi => exact .inr ⟨hi, rfl, rfl⟩
  | _ => exact .inl rfl

theorem WriteEffect.engRdy (h : WriteEffect off n v s t) : t.engRdy = s.engRdy := by cases h <;> rfl

/-- OVR is cleared by a 1 in its bit of STATUS and by no other write (10_state R29). -/
theorem WriteEffect.clears_ovr (h : WriteEffect off n v s t) (hs : s.flags.ovr = true) (ht : t.flags.ovr = false) :
    off = 0x024 ∧ n = 4 ∧ v.getLsbD 5 = true := by
  cases h with
  | status ho hn => exact ⟨ho, hn, by simpa [hs] using ht⟩
  | ignored => cases ht
  | _ => simp [hs] at ht

end

/-! ### The statements about every step -/

/-- Settles O5: the end of INIT, issue, completion and the two edges of RESET move SEQSTATE, and no other turn does. -/
theorem seqStateTransitions : Obligations.SeqStateTransitions := by
  intro s t h hne
  obtain ⟨ts, he⟩ := step_effect_schedule h
  cases he with
  | host => exact absurd rfl hne
  | endInit _ hr hq => exact .inl ⟨hq, rfl, hr, rfl⟩
  | completion _ _ hr hq hx =>
    obtain ⟨r, w, -, rfl⟩ := exec_next hx
    exact .inr (.inr (.inl ⟨hq, rfl, hr, rfl⟩))
  | read u ms _ _ _ _ _ _ hb =>
    obtain rfl | ⟨-, rfl⟩ := busRead_ok hb <;> exact absurd rfl hne
  | write u ms _ _ _ _ _ _ _ _ hr _ _ hb =>
    obtain hsame | ⟨hi, hx, hd⟩ := (busWrite_effect hb).seqState
    · exact absurd hsame hne
    · exact .inr (.inl ⟨hi, hx, hr, hd⟩)
  | assertReset hk => exact .inr (.inr (.inr ⟨rfl, .inl hk⟩))
  | releaseReset hk hr => exact .inr (.inr (.inr ⟨rfl, .inr ⟨hk, hr⟩⟩))
  | releaseLow => exact absurd rfl hne
  | enginePin => exact absurd rfl hne

/-- Settles O6: a reset turn samples ENGINE_PRESENT, and every other turn leaves ENGRDY. -/
theorem engineReadyChangesOnlyInReset : Obligations.EngineReadyChangesOnlyInReset := by
  intro s t h
  refine ⟨?_, getLsbD_statusWord s 4⟩
  obtain ⟨ts, he⟩ := step_effect_schedule h
  cases he with
  | assertReset hk => exact .inr ⟨.inl hk, rfl⟩
  | releaseReset hk => exact .inr ⟨.inr hk, rfl⟩
  | completion _ _ _ _ hx =>
    obtain ⟨r, w, -, rfl⟩ := exec_next hx
    exact .inl rfl
  | read u ms _ _ _ _ _ _ hb =>
    obtain rfl | ⟨-, rfl⟩ := busRead_ok hb <;> exact .inl rfl
  | write u ms _ _ _ _ _ _ _ _ _ _ _ hb => exact .inl (busWrite_effect hb).engRdy
  | _ => exact .inl rfl

theorem widthBytes_eq_four {w : Width} (h : widthBytes w = 4) : w = .w32 := by
  cases w with
  | w32 => rfl
  | _ => cases h

/-- Settles O7: outside reset only a write clears OVR, and of writes only STATUS's with bit 5 set. -/
theorem overrunIsSticky : Obligations.OverrunIsSticky := by
  intro s t h hs ht
  obtain ⟨ts, he⟩ := step_effect_schedule h
  cases he with
  | assertReset hk => exact .inl hk
  | releaseReset hk => exact .inr (.inl hk)
  | releaseLow hk => exact .inr (.inl hk)
  | write u ms i m line w off v rest hk _ hm hp hb =>
    obtain ⟨rfl, hw, hv⟩ := (busWrite_effect hb).clears_ovr hs ht
    obtain rfl := widthBytes_eq_four hw
    exact .inr (.inr ⟨i, m, line, v, rest, hk, hm, hp, hv⟩)
  | completion _ _ _ _ hx =>
    obtain ⟨r, w, -, rfl⟩ := exec_next hx
    simp [hs] at ht
  | read u ms _ _ _ _ _ _ hb =>
    obtain rfl | ⟨-, rfl⟩ := busRead_ok hb <;> simp [hs] at ht
  | _ => simp [hs] at ht

end Sys2Proof.Machine

/-! PROOFS. The statements of 10_state about registers: what a read answers and what an idle write stores. -/

namespace Sys2Proof.Machine

open Sys2Proof.Claims

/-! ### Accesses of one region -/

theorem busRead_of_legal {off n : Nat} (h : legalAccess off n = true) (s : State) :
    busRead off n s = .ok (readRegion (regionAt off) n s) := by
  rw [busRead_of_decoded (decoded_of_legalAccess h), if_pos h]

theorem busWrite_of_legal_idle {off n : Nat} {s : State} (h : legalAccess off n = true)
    (hr : regionAt off ≠ .reg .status) (hs : s.seqState = .idle) (v : Word) :
    busWrite off n v s = .ok (writeRegion (regionAt off) n v s) := by
  rw [busWrite_of_decoded (decoded_of_legalAccess h), if_pos h, if_neg hr, (busy_eq_false s).2 hs]
  rfl

theorem legalAccess_reg {off : Nat} {r : Reg} (hr : regionAt off = .reg r) (ha : off % 4 = 0) :
    legalAccess off 4 = true := by simp [legalAccess, hr, widthOk, ha]

/-- A register is read in every state. -/
theorem busRead_reg {off : Nat} {r : Reg} (hr : regionAt off = .reg r) (ha : off % 4 = 0) (s : State) :
    busRead off 4 s = .ok (readReg r s, s) := by
  rw [busRead_of_legal (legalAccess_reg hr ha), hr]
  rfl

theorem busWrite_reg_idle {off : Nat} {r : Reg} {s : State} (hr : regionAt off = .reg r) (ha : off % 4 = 0)
    (hne : r ≠ .status) (hs : s.seqState = .idle) (v : Word) : busWrite off 4 v s = .ok (writeReg r v s) := by
  rw [busWrite_of_legal_idle (legalAccess_reg hr ha) (by simpa [hr] using hne) hs, hr]
  rfl

/-- STATUS is written in every state (70_reset_and_hazards R162). -/
theorem busWrite_status (v : Word) (s : State) : busWrite 0x024 4 v s = .ok (writeStatus v s) := rfl

/-! ### Identification, parameters and reset -/

/-- Settles O45: each register is read by its row of the register map, and the parameters by the row of VARIANT. -/
theorem parameterRegistersFollowTheVariant : Obligations.ParameterRegistersFollowTheVariant := by
  intro s
  have hcek := busRead_reg (off := 0x00C) (r := .cekSize) rfl rfl s
  have hkey := busRead_reg (off := 0x010) (r := .keySize) rfl rfl s
  have hhash := busRead_reg (off := 0x018) (r := .hashAlg) rfl rfl s
  have htag := busRead_reg (off := 0x01C) (r := .tagSize) rfl rfl s
  simp only [readReg] at hcek hkey hhash htag
  refine ⟨busRead_reg (r := .id) rfl rfl s, busRead_reg (r := .version) rfl rfl s,
    busRead_reg (r := .ivSize) rfl rfl s, ?_, ?_, ?_, ?_⟩
  all_goals
    intro hv
    rw [hv] at hcek hkey hhash htag
    exact ⟨hcek, hkey, hhash, htag⟩

theorem statusWord_resetWith (present : Bool) :
    statusWord (State.resetWith present) = if present then 0x11 else 0x01 := by cases present <;> rfl

/-- Settles O1: the values are those of the reset state's own fields, and the parameters those of VARIANT 0. -/
theorem resetHasTheSpecValues : Obligations.ResetHasTheSpecValues := by
  obtain ⟨hid, hversion, hiv, hpar, -⟩ := parameterRegistersFollowTheVariant State.reset
  obtain ⟨hcek, hkey, hhash, htag⟩ := hpar rfl
  exact ⟨rfl, rfl, rfl, rfl, rfl, rfl, rfl, rfl, rfl, rfl, rfl, rfl, getD_replicate_zero 64, getD_replicate_zero 16,
    getD_replicate_zero 32, getD_replicate_zero 32, fun _ => rfl, rfl, rfl, rfl, rfl, statusWord_resetWith _, hid,
    hversion, hcek, hkey, hiv, hhash, htag, fun _ => rfl⟩

/-! ### STATUS and IRQ -/

/-- Settles O48: STATUS is its word, whose bits and ERRCODE field are read off `getLsbD_statusWord`. -/
theorem statusWordHasItsFields : Obligations.StatusWordHasItsFields := by
  intro s
  have hcode := extractLsb'_statusWord s
  refine ⟨statusWord s, busRead_reg (r := .status) rfl rfl s, ?_, getLsbD_statusWord s 1, getLsbD_statusWord s 2,
    getLsbD_statusWord s 3, getLsbD_statusWord s 4, getLsbD_statusWord s 5, getLsbD_statusWord s 6,
    getLsbD_statusWord s 7, statusWord_lt s, ?_⟩
  · rw [getLsbD_statusWord, busy_iff]
  · rw [hcode]
    refine ⟨?_, ?_, ?_, ?_, ?_, ?_, ?_, ?_⟩
    all_goals
      intro he
      rw [he]
      rfl

/-- Settles O49: it is the accepted write of STATUS, with W1C written out. -/
theorem statusWriteClearsOnes : Obligations.StatusWriteClearsOnes := busWrite_status

/-- Settles O50: each clause is the DONE or the IE that the write, reset or completion leaves. -/
theorem irqIsDoneAndEnabled : Obligations.IrqIsDoneAndEnabled := by
  intro s
  refine ⟨rfl, fun v t h hv => ?_, fun v t hs h hv => ?_, fun w t hs h => ?_, rfl, fun i t h => ?_⟩
  · cases h.symm.trans (busWrite_status v s)
    simp only [State.irq, writeStatus_flags, Flags.w1c_done, hv, Bool.not_true, Bool.and_false, Bool.false_and]
  · cases h.symm.trans (busWrite_reg_idle (r := .ctrl) rfl rfl (by decide) hs v)
    simp only [State.irq, writeReg, Ctrl.ofWord, hv, Bool.and_false]
  · cases h.symm.trans (busWrite_reg_idle (r := .cmd) rfl rfl (by decide) hs w)
    rfl
  · obtain ⟨r, w, -, rfl⟩ := exec_next h
    rfl

/-! ### CTRL and the operand registers -/

theorem ite_headerOnly_beq (b : Bool) :
    ((if b then AlMode.headerOnly else AlMode.authInput) == AlMode.headerOnly) = b := by cases b <;> rfl

theorem ctrl_toWord_ofWord (v : Word) : (Ctrl.ofWord v).toWord = v &&& 0x00010113 := by
  refine BitVec.eq_of_getLsbD_eq fun i hi => ?_
  simp only [Ctrl.toWord, Ctrl.ofWord, ite_headerOnly_beq, BitVec.getLsbD_append]
  interval_cases i <;> simp

/-- A field of `k` bits holds the low bits of the written word. -/
theorem setWidth_setWidth_eq_and {v mask : Word} {k : Nat} (h : mask = BitVec.ofNat 32 (2 ^ k - 1)) :
    (v.setWidth k).setWidth 32 = v &&& mask := by
  subst h
  refine BitVec.eq_of_getLsbD_eq fun i hi => ?_
  simp only [BitVec.getLsbD_setWidth, BitVec.getLsbD_and, BitVec.getLsbD_ofNat, Nat.testBit_two_pow_sub_one, hi,
    decide_true, Bool.true_and, Bool.and_comm]

/-- Settles O46: CTRL holds `Ctrl.ofWord` of the written word, and reads as its word. -/
theorem ctrlStoresItsFieldBits : Obligations.CtrlStoresItsFieldBits := by
  intro v s hs
  refine ⟨_, busWrite_reg_idle (r := .ctrl) rfl rfl (by decide) hs v, ?_, rfl, ?_, ?_, rfl, rfl⟩
  · rw [busRead_reg (r := .ctrl) rfl rfl]
    simp only [readReg, writeReg, ctrl_toWord_ofWord]
  · simp [writeReg, Ctrl.ofWord]
  · simp [writeReg, Ctrl.ofWord]

/-- The register of each operand offset: what it reads, and what a write makes of the operands. -/
theorem operandFields_reg : ∀ f ∈ operandFields, ∃ r : Reg, regionAt f.1 = .reg r ∧ f.1 % 4 = 0 ∧ r ≠ .status ∧
    (∀ s, readReg r s = f.2.2 s.ops) ∧
    ∀ v s, ∃ o, writeReg r v s = { s with ops := o } ∧ o.ctrl = s.ops.ctrl ∧ f.2.2 o = v &&& f.2.1 ∧
      ∀ g ∈ operandFields, g.1 ≠ f.1 → g.2.2 o = g.2.2 s.ops := by
  intro f hf
  simp only [operandFields, List.mem_cons, List.not_mem_nil, or_false] at hf
  rcases hf with rfl | rfl | rfl | rfl | rfl | rfl | rfl | rfl | rfl
  all_goals
    refine ⟨_, rfl, rfl, by decide, fun _ => rfl, fun v s => ⟨_, rfl, rfl, ?_, by simp [operandFields]⟩⟩
    dsimp only
    exact setWidth_setWidth_eq_and rfl

/-- Settles O47: by the register of each operand offset, whose write leaves the other fields. -/
theorem operandRegistersStoreTheirFields : Obligations.OperandRegistersStoreTheirFields := by
  have hread : ∀ s : State, ∀ f ∈ operandFields, busRead f.1 4 s = .ok (f.2.2 s.ops, s) := fun s f hf => by
    obtain ⟨r, hreg, ha, -, hr, -⟩ := operandFields_reg f hf
    rw [busRead_reg hreg ha, hr]
  refine ⟨hread, fun v s hs f hf => ?_⟩
  obtain ⟨r, hreg, ha, hne, -, hw⟩ := operandFields_reg f hf
  obtain ⟨o, ho, hctrl, hf', hothers⟩ := hw v s
  refine ⟨{ s with ops := o }, ?_, hf', ?_, rfl, hctrl, fun g hg hgf => ⟨hothers g hg hgf, ?_⟩⟩
  · rw [busWrite_reg_idle hreg ha hne hs, ho]
  · rw [hread _ f hf, hf']
  · rw [hread _ g hg, hread _ g hg, hothers g hg hgf]
    rfl

end Sys2Proof.Machine

/-! PROOFS. The statements of 10_state about the RAM and the byte windows. -/

namespace Sys2Proof.Machine

open Sys2Proof.Claims

/-! ### Natural accesses -/

section
variable {i n size : Nat} (hn : Natural i n size)
include hn

/-- A natural access is of at least one byte, so its index is inside the region. -/
theorem natural_index_lt : i < size := by
  obtain ⟨hwidth, -, hend⟩ := hn
  omega

theorem natural_end_le : i + n ≤ size := by
  obtain ⟨-, -, hend⟩ := hn
  exact hend

variable {base : Nat} {r : Region} (hb : base % 4 = 0) (hr : regionAt (base + i) = r)
  (hw : ∀ k, widthOk k r = (k == 1 || k == 2 || k == 4))
include hb hr hw

/-- A natural access is legal in a region that takes every width and begins word-aligned (20_memory R57). -/
theorem legalAccess_of_natural : legalAccess (base + i) n = true := by
  obtain ⟨hwidth, ha, -⟩ := hn
  have haligned : (base + i) % n = 0 := by rcases hwidth with rfl | rfl | rfl <;> omega
  simpa [legalAccess, hr, hw, haligned, or_assoc] using hwidth

theorem busRead_of_natural (s : State) : busRead (base + i) n s = .ok (readRegion r n s) := by
  rw [busRead_of_legal (legalAccess_of_natural hn hb hr hw), hr]

theorem busWrite_of_natural_idle {s : State} (hs : s.seqState = .idle) (v : Word) :
    busWrite (base + i) n v s = .ok (writeRegion r n v s) := by
  have hne : r ≠ .reg .status := by
    rintro rfl
    exact absurd (hw 1) (by decide)
  rw [busWrite_of_legal_idle (legalAccess_of_natural hn hb hr hw) (hr ▸ hne) hs, hr]

end

/-! ### Lanes in a window (20_memory R56) -/

section
variable {m i n : Nat} (w : Vector Byte m) (v : Word)

theorem storeWindow_lane {k : Nat} (h : i + n ≤ m) (hk : k < n) :
    (storeWindow w i (toLanes n v))[i + k]? = some (laneByte v k) := by
  rw [storeWindow_same w (by simpa using hk) (by simpa using h), getElem_toLanes]

theorem storeWindow_lanes_frame {j : Nat} (h : j < i ∨ i + n ≤ j) : (storeWindow w i (toLanes n v))[j]? = w[j]? :=
  storeWindow_other w (by simpa using h)

theorem fromLanes_loadWindow_storeWindow (h : i + n ≤ m) :
    fromLanes (loadWindow (storeWindow w i (toLanes n v)) i n) = (v.setWidth (8 * n)).setWidth 32 := by
  have hload := loadWindow_storeWindow w (i := i) (bs := toLanes n v) (by simpa using h)
  rw [length_toLanes] at hload
  rw [hload, fromLanes_toLanes]

end

/-- Settles O55: each window stores the lanes of the word by `storeWindow`, and is read by `loadWindow` or, CEKW, as 0. -/
theorem windowsStoreTheirBytes : Obligations.WindowsStoreTheirBytes := by
  intro i n v s hs
  refine ⟨fun hn => ?_, fun hn => ?_, fun hn => ?_⟩
  · have hr := regionAt_cekw (natural_index_lt hn)
    exact ⟨_, busWrite_of_natural_idle hn rfl hr (fun _ => rfl) hs v, rfl,
      fun _ => storeWindow_lane _ v (natural_end_le hn), fun _ => storeWindow_lanes_frame _ v,
      busRead_of_natural hn rfl hr (fun _ => rfl) _⟩
  · have hr := regionAt_ivw (natural_index_lt hn)
    refine ⟨_, busWrite_of_natural_idle hn rfl hr (fun _ => rfl) hs v, rfl,
      fun _ => storeWindow_lane _ v (natural_end_le hn), fun _ => storeWindow_lanes_frame _ v, ?_⟩
    rw [busRead_of_natural hn rfl hr fun _ => rfl, readRegion, writeRegion,
      fromLanes_loadWindow_storeWindow _ v (natural_end_le hn)]
  · have hr := regionAt_tagInw (natural_index_lt hn)
    refine ⟨_, busWrite_of_natural_idle hn rfl hr (fun _ => rfl) hs v, rfl,
      fun _ => storeWindow_lane _ v (natural_end_le hn), fun _ => storeWindow_lanes_frame _ v, ?_⟩
    rw [busRead_of_natural hn rfl hr fun _ => rfl, readRegion, writeRegion,
      fromLanes_loadWindow_storeWindow _ v (natural_end_le hn)]

/-- In IDLE a RAM read is the RAM's bytes; while busy it draws free ones (70_reset_and_hazards R163). -/
theorem readRegion_ram_idle {s : State} (hs : s.seqState = .idle) (i n : Nat) :
    readRegion (.ram i) n s = (fromLanes (Memory.readBytes s.ram i n), s) := by
  rw [readRegion, (busy_eq_false s).2 hs]
  rfl

theorem readRegion_ram_busy {s : State} (hs : s.seqState ≠ .idle) (i n : Nat) :
    readRegion (.ram i) n s = (fromLanes (drawBytes n s), { s with draws := s.draws + n }) := by
  rw [readRegion, (busy_iff s).2 hs]
  rfl

/-- Settles O54: an idle RAM write is `Memory.writeBytes` of the word's lanes, inside the RAM. -/
theorem ramReadsBackWhatWasWritten : Obligations.RamReadsBackWhatWasWritten := by
  intro i n v s hs hm hn
  have hr := regionAt_ram (natural_index_lt hn)
  have hend : i + (toLanes n v).length ≤ Config.msgRamBytes := by
    rw [length_toLanes]
    exact natural_end_le hn
  refine ⟨_, busWrite_of_natural_idle hn rfl hr (fun _ => rfl) hs v, rfl, Memory.writeBytes_wf hm hend,
    fun k hk => ?_, fun a ha => Memory.read_writeBytes_other (by simpa using ha), ?_⟩
  · exact (Memory.read_writeBytes_same hm hend (by simpa using hk)).trans (getElem_toLanes n v k _)
  · have hback := Memory.readBytes_writeBytes hm hend
    rw [length_toLanes] at hback
    rw [busRead_of_natural hn rfl hr fun _ => rfl, writeRegion, readRegion_ram_idle (by exact hs), hback,
      fromLanes_toLanes]

/-! ### CEKW is not readable -/

theorem readRegion_cekw_irrelevant (r : Region) (n : Nat) (s : State) (w : Vector Byte 64) :
    (readRegion r n { s with win := { s.win with cekw := w } }).1 = (readRegion r n s).1 := by
  cases r with
  | reg q => cases q <;> rfl
  | ram i =>
    by_cases hs : s.seqState = .idle
    · rw [readRegion_ram_idle hs, readRegion_ram_idle (by exact hs)]
    · rw [readRegion_ram_busy hs, readRegion_ram_busy (by exact hs)]
      rfl
  | _ => rfl

/-- Settles O57: the region's value is the same whatever CEKW holds, and so is whether the access is answered. -/
theorem cekIsNotReadable : Obligations.CekIsNotReadable := by
  intro off n s w
  unfold busRead
  split_ifs
  · rfl
  · exact congrArg some (readRegion_cekw_irrelevant (regionAt off) n s w)
  · rfl

/-! ### What each command writes in the RAM -/

/-- The RAM write of a Result, if it has one, is its output: the `outLen` bytes from `off` on, and nothing is zeroed. -/
def Result.WritesOutputAt (off : Nat) (r : Result) : Prop :=
  r.zeroRam = false ∧ ∀ o bs, r.ramWrite = some (o, bs) → o = off ∧ r.outLen = BitVec.ofNat 16 bs.length

theorem failureResult_writesOutputAt (off : Nat) (e : Raised) : (failureResult e).WritesOutputAt off :=
  ⟨rfl, fun _ _ h => by cases h⟩

theorem encResult_writesOutputAt (eng : Engine) (s : State) :
    (resultOf (encResult eng s)).WritesOutputAt s.ops.outOff.toNat := by
  cases h : encResult eng s with
  | error e => exact failureResult_writesOutputAt _ e
  | ok r =>
    obtain ⟨p, c, -, -, rfl⟩ := encResult_ok h
    exact ⟨rfl, fun o bs hw => by cases hw; exact ⟨rfl, rfl⟩⟩

theorem decResult_writesOutputAt (eng : Engine) (s : State) :
    (resultOf (decResult eng s)).WritesOutputAt s.ops.outOff.toNat := by
  cases h : decResult eng s with
  | error e => exact failureResult_writesOutputAt _ e
  | ok r =>
    obtain ⟨p, pt, -, -, -, rfl⟩ := decResult_ok h
    exact ⟨rfl, fun o bs hw => by cases hw; exact ⟨rfl, rfl⟩⟩

/-- A commit leaves every byte outside the output region. The region lies in the RAM, so that OUT_LEN is its length. -/
theorem Result.read_ramAfter_other {r : Result} {off a : Nat} (hw : r.WritesOutputAt off) (hg : r.Good)
    (ha : a < off ∨ off + r.outLen.toNat ≤ a) (m : Memory) : Memory.read (r.ramAfter m) a = Memory.read m a := by
  obtain ⟨hz, hout⟩ := hw
  cases h : r.ramWrite with
  | none => simp [Result.ramAfter, h, hz]
  | some w =>
    obtain ⟨o, bs⟩ := w
    obtain ⟨rfl, hlen⟩ := hout o bs h
    have hbound : o + bs.length ≤ 4096 := hg.bounded o bs h
    have hlen' : r.outLen.toNat = bs.length := by
      rw [hlen, BitVec.toNat_ofNat, Nat.mod_eq_of_lt (by omega)]
    simp only [Result.ramAfter, h, hz]
    exact Memory.read_writeBytes_other (hlen' ▸ ha)

theorem tagResult_ramAfter (s : State) (m : Memory) : (resultOf (tagResult s)).ramAfter m = m := by
  cases h : tagResult s with
  | error e => rfl
  | ok r =>
    obtain ⟨p, -, rfl⟩ := tagResult_ok h
    rfl

theorem verifyResult_ramAfter (s : State) (m : Memory) : (resultOf (verifyResult s)).ramAfter m = m := by
  cases h : verifyResult s with
  | error e => rfl
  | ok r =>
    obtain ⟨p, -, -, rfl⟩ := verifyResult_ok h
    rfl

/-- A command other than ZEROIZE, ENC and DEC leaves the RAM. -/
theorem exec_ram_of_no_output {i : Instr} {s t : State} (h : exec i s = .next t) (hz : i ≠ .zeroize) (he : i ≠ .enc)
    (hd : i ≠ .dec) : t.ram = s.ram := by
  cases i with
  | zeroize => exact absurd rfl hz
  | enc => exact absurd rfl he
  | dec => exact absurd rfl hd
  | tag => cases h; exact tagResult_ramAfter s s.ram
  | verify => cases h; exact verifyResult_ramAfter s s.ram
  | _ => cases h; rfl

/-- Settles O26: by the Result each command commits. -/
theorem commandsWriteOnlyTheirOutputRegion : Obligations.CommandsWriteOnlyTheirOutputRegion := by
  intro i s t h
  refine ⟨?_, ?_, fun hz he hd a => by rw [exec_ram_of_no_output h hz he hd]⟩
  · rintro rfl a
    cases h
    rfl
  · rintro (rfl | rfl) a ha <;> cases h
    · exact Result.read_ramAfter_other (encResult_writesOutputAt _ s) (encResult_good _ s) ha s.ram
    · exact Result.read_ramAfter_other (decResult_writesOutputAt _ s) (decResult_good _ s) ha s.ram

end Sys2Proof.Machine

/-! PROOFS. The statements of 20_memory: what the bus answers, and what a master does with the answer. -/

namespace Sys2Proof.Machine

open Sys2Proof.Claims

/-! ### Which accesses are answered, and how (20_memory R50, R54) -/

/-- The model's legal accesses are those of 20_memory R54, region by region. -/
theorem legalAccess_iff_not_illegal (off n : Nat) : legalAccess off n = true ↔ ¬ Illegal off n := by
  have hc := regionAt_cases off
  simp only [Config.msgRamBytes] at hc
  rcases hc with ⟨_, r, _, hr⟩ | ⟨i, _, _, hr⟩ | ⟨i, _, _, hr⟩ | ⟨i, _, _, hr⟩ | ⟨i, _, _, hr⟩ | ⟨i, _, _, hr⟩ | ⟨_, hr⟩
  all_goals
    simp only [legalAccess, hr, widthOk, Illegal, Unmapped, Bool.and_eq_true, Bool.or_eq_true, beq_iff_eq,
      Bool.false_eq_true, false_and, false_iff]
    omega

theorem legalAccess_eq_false_iff (off n : Nat) : legalAccess off n = false ↔ Illegal off n := by
  rw [← Bool.not_eq_true, legalAccess_iff_not_illegal, not_not]

theorem decoded_iff (off : Nat) : decoded off = true ↔ off ≤ 0x2000 := decide_eq_true_iff

theorem decoded_eq_false_iff (off : Nat) : decoded off = false ↔ 0x2000 < off := by
  rw [← Bool.not_eq_true, decoded_iff, Nat.not_le]

section
variable (off n : Nat) (v : Word) (s : State)

/-- A legal access is never unanswered: what the write does depends on the state, that it is accepted does not. -/
theorem busWrite_of_legal (h : legalAccess off n = true) : ∃ t, busWrite off n v s = .ok t := by
  rw [busWrite_of_decoded (decoded_of_legalAccess h), if_pos h]
  split_ifs <;> exact ⟨_, rfl⟩

theorem busRead_of_illegal (hd : off ≤ 0x2000) (h : Illegal off n) : busRead off n s = .busError := by
  rw [busRead_of_decoded ((decoded_iff off).2 hd), (legalAccess_eq_false_iff off n).2 h]
  rfl

theorem busWrite_of_illegal (hd : off ≤ 0x2000) (h : Illegal off n) : busWrite off n v s = .busError := by
  rw [busWrite_of_decoded ((decoded_iff off).2 hd), (legalAccess_eq_false_iff off n).2 h]
  rfl

theorem busRead_past_window (h : 0x2000 < off) : busRead off n s = .notDecoded :=
  busRead_of_not_decoded ((decoded_eq_false_iff off).2 h) n s

theorem busWrite_past_window (h : 0x2000 < off) : busWrite off n v s = .notDecoded :=
  busWrite_of_not_decoded ((decoded_eq_false_iff off).2 h) n v s

end

/-- Settles O42: an access past the window, an illegal one and a legal one each have their own answer. -/
theorem busErrorsAreTheIllegalAccesses : Obligations.BusErrorsAreTheIllegalAccesses := by
  intro off n v s
  obtain hd | hd := Nat.lt_or_ge 0x2000 off
  · simp [busRead_past_window off n s hd, busWrite_past_window off n v s hd, hd]
  by_cases hi : Illegal off n
  · simp [busRead_of_illegal off n s hd hi, busWrite_of_illegal off n v s hd hi, hd, hi]
  · have hl := (legalAccess_iff_not_illegal off n).2 hi
    obtain ⟨t, ht⟩ := busWrite_of_legal off n v s hl
    simp [busRead_of_legal hl, ht, hd, hi]

/-! ### Reads have no side effect (20_memory R61) -/

/-- A read that is answered is the read of its region. -/
theorem busRead_eq_ok {off n : Nat} {s : State} {a : Word × State} (h : busRead off n s = .ok a) :
    readRegion (regionAt off) n s = a := by
  unfold busRead at h
  split_ifs at h
  exact Reply.ok.inj h

/-- Only a busy read of the RAM moves the draw counter. -/
theorem readRegion_state_eq {r : Region} {s : State} (h : s.seqState = .idle ∨ ∀ i, r ≠ .ram i) (n : Nat) :
    (readRegion r n s).2 = s := by
  cases r with
  | ram i =>
    obtain hs | hr := h
    · rw [readRegion_ram_idle hs]
    · exact absurd rfl (hr i)
  | _ => rfl

theorem regionAt_ne_ram {off : Nat} (h : off < 0x1000) (i : Nat) : regionAt off ≠ .ram i := fun hr => by
  obtain ⟨rfl, -⟩ := regionAt_ram_inv hr
  omega

/-- Settles O44: a read moves the draw counter at most, and not even that in IDLE or below the RAM. -/
theorem readsHaveNoSideEffect : Obligations.ReadsHaveNoSideEffect := by
  intro off n s t v h
  refine ⟨?_, fun hq => ?_⟩
  · obtain rfl | ⟨-, rfl⟩ := busRead_ok h <;> rfl
  · have hs := readRegion_state_eq (hq.imp_right regionAt_ne_ram) n
    rw [busRead_eq_ok h] at hs
    obtain rfl : t = s := hs
    exact ⟨rfl, h⟩

/-! ### A master's access (20_memory R53; 30_encoding R79, R84) -/

/-- The turn of `MasterAt` with RESET low runs the master's instruction, the turn taken off the schedule. -/
theorem step_of_masterAt {s : State} {i line : Nat} {m : Master} {hi : HostInstr} {rest : List (Nat × HostInstr)}
    {ts : List Turn} (h : MasterAt s i m line hi rest ts) (hr : s.rst = false) :
    step s = runHostInstr hi i line rest m { s with schedule := ts } := by
  obtain ⟨hsch, hm, hstop, hp⟩ := h
  rw [step_cons hsch]
  exact masterTurn_of_running hr hm hstop hp

section
variable {hi : HostInstr} {w : Width} {off : Nat} {v : Word} {name : VarName}
  (ha : hi = .wr w off v ∨ hi = .rd w off name ∨ hi = .rdAppend w off name)
  (i line : Nat) (rest : List (Nat × HostInstr)) (m : Master) (s : State)
include ha

/-- A bus error stops the master, whichever access it made. -/
theorem runHostInstr_of_illegal (hd : off ≤ 0x2000) (h : Illegal off (widthBytes w)) :
    runHostInstr hi i line rest m s = .next (s.setMaster i (m.stopAt line)) := by
  rcases ha with rfl | rfl | rfl
  · rw [runHostInstr, busWrite_of_illegal off _ v s hd h, onReply]
  · rw [runHostInstr, busRead_of_illegal off _ s hd h, onReply]
  · rw [runHostInstr, busRead_of_illegal off _ s hd h, onReply]

theorem runHostInstr_past_window (h : 0x2000 < off) :
    runHostInstr hi i line rest m s = .refused .outsideWindow := by
  rcases ha with rfl | rfl | rfl
  · rw [runHostInstr, busWrite_past_window off _ v s h, onReply]
  · rw [runHostInstr, busRead_past_window off _ s h, onReply]
  · rw [runHostInstr, busRead_past_window off _ s h, onReply]

end

/-- A master that goes on with its variable set holds the value there, and every other variable as before. -/
theorem goesOn_advance_setVar (m : Master) (rest : List (Nat × HostInstr)) (name : VarName) (val : HostVal) :
    GoesOn m rest name val (m.advance rest (setVar name val m.vars)) :=
  ⟨rfl, rfl, getVar_setVar_same name val m.vars, fun _ h => getVar_setVar_other h val m.vars⟩

/-- A read leaves the masters to their turns, and so does a write. -/
theorem busRead_masters {off n : Nat} {s t : State} {v : Word} (h : busRead off n s = .ok (v, t)) :
    t.masters = s.masters := by
  obtain rfl | ⟨-, rfl⟩ := busRead_ok h <;> rfl

theorem busWrite_masters {off n : Nat} {v : Word} {s t : State} (h : busWrite off n v s = .ok t) :
    t.masters = s.masters := by
  cases busWrite_effect h <;> rfl

/-- A master goes on from an answered read with the word read; no master but itself has changed. -/
theorem onReply_read_answered {off n : Nat} {s t : State} {x : Word} (h : busRead off n s = .ok (x, t))
    (i line : Nat) (m : Master) (k : Word → Master) :
    (onReply (busRead off n s) i line m s fun a => a.2.setMaster i (k a.1)) =
      .next { t with masters := s.masters.set i (k x) } := by
  rw [h, ← busRead_masters h]
  rfl

theorem onReply_write_answered {off n : Nat} {v : Word} {s t : State} (h : busWrite off n v s = .ok t)
    (i line : Nat) (m m' : Master) :
    (onReply (busWrite off n v s) i line m s fun u => u.setMaster i m') =
      .next { t with masters := s.masters.set i m' } := by
  rw [h, ← busWrite_masters h]
  rfl

theorem varBytes_of_holdsBytes {m : Master} {name : VarName} {bs : Bytes} (h : HoldsBytes m name bs) :
    varBytes name m.vars = bs := by
  obtain hb | ⟨rfl, hn⟩ := h
  · rw [varBytes, hb]
  · rw [varBytes]
    split
    · next bs hb => exact absurd hb (hn bs)
    · rfl
    · rfl

/-- Settles O43: each clause is the master's one host instruction by the answer to its access. -/
theorem busErrorStopsOnlyItsMaster : Obligations.BusErrorStopsOnlyItsMaster := by
  intro s i m line w off v name rest ts hi hat hr
  rw [step_of_masterAt hat hr]
  refine ⟨fun ha => ⟨runHostInstr_of_illegal ha i line rest m _, runHostInstr_past_window ha i line rest m _⟩,
    ?_, ?_, ?_, ?_⟩
  · rintro rfl t ht
    exact onReply_write_answered ht i line m (m.advance rest m.vars)
  · rintro rfl x t ht
    exact ⟨_, goesOn_advance_setVar m rest name _, onReply_read_answered ht i line m
      fun y => m.advance rest (setVar name (.num y) m.vars)⟩
  · rintro rfl x t ht bs hbs
    rw [← varBytes_of_holdsBytes hbs]
    exact ⟨_, goesOn_advance_setVar m rest name _, onReply_read_answered ht i line m
      fun y => m.advance rest (setVar name (.bytes (varBytes name m.vars ++ toLanes (widthBytes w) y)) m.vars)⟩
  · rintro rfl
    exact ⟨_, goesOn_advance_setVar m rest name _, rfl⟩

/-! ### Read-only and write-only locations (20_memory R60) -/

/-- The register at each read-only offset: a write leaves the state. -/
theorem readOnly_reg : ∀ off ∈ [0x000, 0x004, 0x00C, 0x010, 0x014, 0x018, 0x01C, 0x04C, 0x050], ∃ r : Reg,
    regionAt off = .reg r ∧ off % 4 = 0 ∧ r ≠ .status ∧ ∀ v s, writeReg r v s = s := by
  intro off hoff
  simp only [List.mem_cons, List.not_mem_nil, or_false] at hoff
  rcases hoff with rfl | rfl | rfl | rfl | rfl | rfl | rfl | rfl | rfl
  all_goals exact ⟨_, rfl, rfl, by decide, fun _ _ => rfl⟩

/-- The word of a byte string has no bit past the string. -/
theorem fromLanes_lt {bs : Bytes} (h : bs.length ≤ 4) : (fromLanes bs).toNat < 2 ^ (8 * bs.length) := by
  have hcut := fromLanes_toLanes bs.length (fromLanes bs)
  rw [toLanes_fromLanes h] at hcut
  rw [hcut, BitVec.toNat_setWidth]
  exact (Nat.mod_le _ _).trans_lt (BitVec.isLt _)

/-- Lane `k` of the word of a byte string is the string's byte `k` (20_memory R56). -/
theorem laneByte_fromLanes {bs : Bytes} (h : bs.length ≤ 4) {k : Nat} (hk : k < bs.length) :
    laneByte (fromLanes bs) k = bs[k] := by
  rw [← getElem_toLanes bs.length (fromLanes bs) k (by simpa using hk)]
  simp only [toLanes_fromLanes h]

section
variable {size i n : Nat} (w : Vector Byte size) (hn : Natural i n size)
include hn

theorem length_loadWindow : (loadWindow w i n).length = n := by
  have hend := natural_end_le hn
  simp only [loadWindow, List.length_take, List.length_drop, Vector.length_toList]
  omega

theorem length_loadWindow_le : (loadWindow w i n).length ≤ 4 := by
  rw [length_loadWindow w hn]
  obtain ⟨hwidth, -⟩ := hn
  omega

/-- A natural read of a window fits its width. -/
theorem fromLanes_loadWindow_lt : (fromLanes (loadWindow w i n)).toNat < 2 ^ (8 * n) := by
  have hlt := fromLanes_lt (length_loadWindow_le w hn)
  rwa [length_loadWindow w hn] at hlt

/-- Lane `k` of a natural read of a window is the window's byte at index + k. -/
theorem laneByte_fromLanes_loadWindow {k : Nat} (hk : k < n) :
    w[i + k]? = some (laneByte (fromLanes (loadWindow w i n)) k) := by
  have hlen : k < (loadWindow w i n).length := by rwa [length_loadWindow w hn]
  rw [laneByte_fromLanes (length_loadWindow_le w hn) hlen, ← List.getElem?_eq_getElem hlen]
  simp [loadWindow, hk]

end

/-- Settles O53: by the region each location lies in, which writes ignore or reads do not show. -/
theorem readOnlyAndWriteOnlyLocations : Obligations.ReadOnlyAndWriteOnlyLocations := by
  refine ⟨fun v s hs => ⟨fun off hoff => ?_, fun i n hn => ?_⟩,
    fun s => ⟨busRead_reg (r := .cmd) rfl rfl s, fun i n hn => ?_⟩,
    fun s => ⟨busRead_reg (r := .outLen) rfl rfl s, busRead_reg (r := .tagOutLen) rfl rfl s, fun i n hn => ?_⟩⟩
  · obtain ⟨r, hr, ha, hne, hw⟩ := readOnly_reg off hoff
    rw [busWrite_reg_idle hr ha hne hs, hw]
  · exact busWrite_of_natural_idle hn rfl (regionAt_tagOutw (natural_index_lt hn)) (fun _ => rfl) hs v
  · exact busRead_of_natural hn rfl (regionAt_cekw (natural_index_lt hn)) (fun _ => rfl) s
  · exact ⟨_, busRead_of_natural hn rfl (regionAt_tagOutw (natural_index_lt hn)) (fun _ => rfl) s,
      fromLanes_loadWindow_lt s.out.tagOutw hn, fun _ => laneByte_fromLanes_loadWindow s.out.tagOutw hn⟩

end Sys2Proof.Machine

/-! PROOFS. The statements of 30_encoding about the command word: its two fields, and decode against encode. -/

namespace Sys2Proof

/-! ### The fields of a word (R73) -/

theorem mbzField_append (u : BitVec 28) (o : BitVec 4) : mbzField (u ++ o) = u := BitVec.extractLsb'_append_eq_left

theorem opcodeField_append (u : BitVec 28) (o : BitVec 4) : opcodeField (u ++ o) = o :=
  BitVec.extractLsb'_append_eq_right

/-- A word is its two fields: none of its bits is outside them. -/
theorem mbzField_append_opcodeField (w : Word) : mbzField w ++ opcodeField w = w :=
  (BitVec.extractLsb'_append_extractLsb'_eq_extractLsb' rfl).trans BitVec.extractLsb'_eq_self

theorem toNat_mbzField (w : Word) : (mbzField w).toNat = w.toNat / 16 := by
  have hw := w.isLt
  rw [mbzField, BitVec.extractLsb'_toNat, Nat.shiftRight_eq_div_pow]
  omega

/-! ### Decode by the MBZ field (R74, R76) -/

theorem decode_of_mbzField_ne_zero {w : Word} (h : mbzField w ≠ 0) :
    decode w = .illegalUpper (mbzField w) (opcodeField w) := if_pos h

theorem decode_append_of_ne_zero {u : BitVec 28} (h : u ≠ 0) (o : BitVec 4) :
    decode (u ++ o) = .illegalUpper u o := by
  rw [decode_of_mbzField_ne_zero (by rwa [mbzField_append]), mbzField_append, opcodeField_append]

/-- The sixteen words with MBZ zero. -/
theorem wf_decode_and_encode_decode_of_opcode (o : BitVec 4) :
    (decode (0#28 ++ o)).wf = true ∧ encode (decode (0#28 ++ o)) = 0#28 ++ o := by
  revert o
  decide

/-! ### Decode and encode are inverse (R75) -/

theorem decode_encode {i : Instr} (h : i.wf = true) : decode (encode i) = i := by
  cases i with
  | reserved67 low => revert low; decide
  | reserved8F low => revert low; decide
  | illegalUpper u o => exact decode_append_of_ne_zero (bne_iff_ne.1 h) o
  | _ => rfl

theorem wf_decode_and_encode_decode (w : Word) : (decode w).wf = true ∧ encode (decode w) = w := by
  rw [← mbzField_append_opcodeField w]
  by_cases h : mbzField w = 0
  · rw [h]
    exact wf_decode_and_encode_decode_of_opcode _
  · rw [decode_append_of_ne_zero h]
    exact ⟨bne_iff_ne.2 h, rfl⟩

/-- Settles O13: by the MBZ field of the word; where it is zero, sixteen opcodes are left. -/
theorem decodeAndEncodeAgree : Obligations.DecodeAndEncodeAgree :=
  ⟨fun _ => decode_encode, wf_decode_and_encode_decode⟩

/-! ### The opcode map (R74) -/

/-- A word with the number of an instruction's encoding decodes to that instruction. -/
theorem decode_of_toNat_eq_encode {w : Word} {i : Instr} (hi : i.wf = true) (h : w.toNat = (encode i).toNat) :
    decode w = i := by
  rw [BitVec.eq_of_toNat_eq h, decode_encode hi]

theorem toNat_encode_reserved8F (low : BitVec 3) : (encode (.reserved8F low)).toNat = 8 + low.toNat := by
  revert low
  decide

/-- Settles O12: each word below 16 is the encoding of its row's instruction; the others have MBZ not zero. -/
theorem decodingFollowsTheOpcodeMap : Obligations.DecodingFollowsTheOpcodeMap := by
  intro w
  refine ⟨fun h => ⟨_, _, decode_of_mbzField_ne_zero fun hm => h ?_⟩,
    decode_of_toNat_eq_encode (i := .nop) rfl, decode_of_toNat_eq_encode (i := .enc) rfl,
    decode_of_toNat_eq_encode (i := .dec) rfl, decode_of_toNat_eq_encode (i := .tag) rfl,
    decode_of_toNat_eq_encode (i := .verify) rfl, decode_of_toNat_eq_encode (i := .zeroize) rfl, ?_, ?_⟩
  · rw [← toNat_mbzField, hm]
    rfl
  · rintro (h | h)
    · exact ⟨0, decode_of_toNat_eq_encode rfl h⟩
    · exact ⟨1, decode_of_toNat_eq_encode rfl h⟩
  · rintro ⟨hlo, hhi⟩
    refine ⟨BitVec.ofNat 3 (w.toNat - 8), decode_of_toNat_eq_encode rfl ?_⟩
    rw [toNat_encode_reserved8F, BitVec.toNat_ofNat]
    omega

/-- Settles O14: ten words of the opcode map, evaluated. -/
theorem sampleWordsDecode : Obligations.SampleWordsDecode :=
  ⟨rfl, rfl, rfl, rfl, rfl, rfl, rfl, rfl, rfl, rfl⟩

end Sys2Proof

/-! PROOFS. The statements of 30_encoding about host programs: `poll` and `wrbytes`. -/

namespace Sys2Proof.Machine

open Sys2Proof.Claims

/-! ### poll (R80) -/

/-- What a poll does with the STATUS word: it stays at itself while BUSY, bit 0, is 1. -/
def Master.afterPoll (m : Master) (rest : List (Nat × HostInstr)) (v : Word) : Master :=
  m.advance (if v.getLsbD 0 then m.prog else rest) (setVar "s" (.num v) m.vars)

theorem runHostInstr_poll (i line : Nat) (rest : List (Nat × HostInstr)) (m : Master) (s : State) :
    runHostInstr .poll i line rest m s =
      .next { s with masters := s.masters.set i (m.afterPoll rest (statusWord s)) } :=
  onReply_read_answered (busRead_reg (off := 0x024) (r := .status) rfl rfl s) i line m (m.afterPoll rest)

theorem afterPoll_statusWord (m : Master) (rest : List (Nat × HostInstr)) (s : State) :
    m.afterPoll rest (statusWord s) =
      { m with
        prog := if s.seqState = .idle then rest else m.prog
        vars := setVar "s" (.num (statusWord s)) m.vars } := by
  have hbusy : (statusWord s).getLsbD 0 = s.busy := getLsbD_statusWord s 0
  rw [Master.afterPoll, hbusy]
  by_cases hs : s.seqState = .idle
  · rw [(busy_eq_false s).2 hs, if_pos hs]
    rfl
  · rw [(busy_iff s).2 hs, if_neg hs]
    rfl

/-- Settles O58: the poll's answered read of STATUS, whose bit 0 is BUSY. -/
theorem pollWaitsForNotBusy : Obligations.PollWaitsForNotBusy := by
  intro s i m line rest ts hat hr
  rw [step_of_masterAt hat hr, runHostInstr_poll, afterPoll_statusWord]
  rfl

/-! ### wrbytes (R83) -/

theorem performWrites_wr {w : Width} {off : Nat} {v : Word} {s t : State}
    (h : busWrite off (widthBytes w) v s = .ok t) (his : List HostInstr) :
    performWrites (.wr w off v :: his) s = performWrites his t := by
  rw [performWrites, h]

/-- An idle RAM write as a change of the state: the RAM takes the lanes of the word. -/
theorem busWrite_ram_idle {i n : Nat} {s : State} (hn : Natural i n 4096) (hs : s.seqState = .idle) (v : Word) :
    busWrite (0x1000 + i) n v s = .ok { s with ram := Memory.writeBytes s.ram i (toLanes n v) } :=
  busWrite_of_natural_idle hn rfl (regionAt_ram (natural_index_lt hn)) (fun _ => rfl) hs v

theorem toLanes_wordOfLanes (b0 b1 b2 b3 : Byte) : toLanes 4 (wordOfLanes b0 b1 b2 b3) = [b0, b1, b2, b3] := by
  have h0 : laneByte (wordOfLanes b0 b1 b2 b3) 0 = b0 := BitVec.extractLsb'_append_eq_right
  have h1 : laneByte (wordOfLanes b0 b1 b2 b3) 1 = b1 :=
    (BitVec.extractLsb'_append_eq_of_le (by decide)).trans BitVec.extractLsb'_append_eq_right
  have h2 : laneByte (wordOfLanes b0 b1 b2 b3) 2 = b2 :=
    (BitVec.extractLsb'_append_eq_of_le (by decide)).trans
      ((BitVec.extractLsb'_append_eq_of_le (by decide)).trans BitVec.extractLsb'_append_eq_right)
  have h3 : laneByte (wordOfLanes b0 b1 b2 b3) 3 = b3 :=
    (BitVec.extractLsb'_append_eq_of_le (by decide)).trans
      ((BitVec.extractLsb'_append_eq_of_le (by decide)).trans BitVec.extractLsb'_append_eq_left)
  simp [toLanes, List.range_succ, h0, h1, h2, h3]

theorem setWidth_eq_fromLanes (b : Byte) : b.setWidth 32 = fromLanes [b] := by simp [fromLanes]

theorem toLanes_setWidth (b : Byte) : toLanes 1 (b.setWidth 32) = [b] := by
  rw [setWidth_eq_fromLanes]
  exact toLanes_fromLanes (bs := [b]) (by simp)

/-- The writes of `wrbytes`. The offset is word-aligned as long as four bytes are left: only then is a word written. -/
theorem performWrites_wrbytesInstrs {o : Nat} {bs : Bytes} {s : State} (hs : s.seqState = .idle)
    (ha : o % 4 = 0 ∨ bs.length < 4) (hend : o + bs.length ≤ 4096) :
    performWrites (wrbytesInstrs (0x1000 + o) bs) s = some { s with ram := Memory.writeBytes s.ram o bs } := by
  induction o, bs using wrbytesInstrs.induct generalizing s with
  | case1 o b0 b1 b2 b3 rest ih =>
    simp only [List.length_cons] at ha hend
    have hn : Natural o 4 4096 := ⟨by decide, by omega, by omega⟩
    rw [wrbytesInstrs, performWrites_wr (w := .w32) (busWrite_ram_idle hn hs _), toLanes_wordOfLanes]
    exact ih (s := { s with ram := _ }) hs (by omega) (by omega)
  | case2 o b rest hne ih =>
    have hshort : rest.length < 3 := by
      rcases rest with _ | ⟨b1, _ | ⟨b2, _ | ⟨b3, rest⟩⟩⟩
      case cons.cons.cons => exact (hne b1 b2 b3 rest rfl).elim
      all_goals simp
    rw [List.length_cons] at hend
    have hn : Natural o 1 4096 := ⟨by decide, Nat.mod_one o, by omega⟩
    rw [wrbytesInstrs, performWrites_wr (w := .w8) (busWrite_ram_idle hn hs _), toLanes_setWidth]
    · exact ih (s := { s with ram := _ }) hs (by omega) (by omega)
    · exact hne
  | case3 o => rfl

/-- Settles O59: by induction over the writes, each of which stores its lanes. -/
theorem wrbytesWritesItsBytes : Obligations.WrbytesWritesItsBytes :=
  fun _ _ _ hs ha hend => performWrites_wrbytesInstrs hs (.inl ha) hend

end Sys2Proof.Machine

/-! PROOFS. The statements of 40_tag_protocol about the tag: the key split, the MAC input, the hash and tag lengths, and
CTEQ. -/

namespace Sys2Proof.Machine

open Sys2Proof.Claims

/-! ### The key split (R87) -/

theorem keySplit_fst_append_snd (cek : Bytes) : (keySplit cek).1 ++ (keySplit cek).2 = cek :=
  List.take_append_drop _ cek

theorem length_keySplit_fst (cek : Bytes) : (keySplit cek).1.length = cek.length / 2 := by
  simp only [keySplit, List.length_take]
  omega

theorem length_keySplit_snd (cek : Bytes) : (keySplit cek).2.length = cek.length - cek.length / 2 := List.length_drop

/-- Settles O35: the cut is in the middle of the CEK, whose length is that of the variant's row. -/
theorem keySplitBisectsTheCek : Obligations.KeySplitBisectsTheCek := by
  refine ⟨fun v p cek hp hlen => ⟨keySplit_fst_append_snd cek, ?_⟩, by decide⟩
  rw [length_keySplit_fst, length_keySplit_snd, hlen]
  rcases par_cases hp with ⟨rfl, rfl⟩ | ⟨rfl, rfl⟩ | ⟨rfl, rfl⟩ <;> decide

/-! ### The authenticated input and AL (R89-R91) -/

theorem length_authInput_some (h a : Bytes) : (authInput h (some a)).length = h.length + 1 + a.length := by
  simp only [authInput, List.length_append, List.length_singleton]

/-- Settles O36: by the two equations of AuthInput. -/
theorem absentAadDiffersFromEmptyAad : Obligations.AbsentAadDiffersFromEmptyAad :=
  fun h _ => ⟨rfl, rfl, length_authInput_some h []⟩

/-- A header and an AAD within the 16-bit length registers make an AuthInput of at most 2 × 0xFFFF + 1 bytes (R90). -/
theorem length_authInput_le {h : Bytes} {a : Option Bytes} (hh : h.length ≤ 0xFFFF)
    (ha : ∀ x, a = some x → x.length ≤ 0xFFFF) : (authInput h a).length ≤ 2 * 0xFFFF + 1 := by
  cases a with
  | none => exact Nat.le_trans hh (by decide)
  | some x =>
    have hx := ha x rfl
    rw [length_authInput_some]
    omega

@[simp] theorem length_be64 (v : Nat) : (be64 v).length = 8 := by simp [be64]

/-- `be64` is big-endian: its number is the value, where 64 bits hold it. -/
theorem beNumber_be64 {v : Nat} (h : v < 2 ^ 64) : beNumber (be64 v) = v := by
  have hbyte (n : Nat) : (BitVec.ofNat 8 (v >>> n)).toNat = v / 2 ^ n % 256 := by
    rw [BitVec.toNat_ofNat, Nat.shiftRight_eq_div_pow]
  simp only [be64, beNumber, List.range_succ, List.range_zero, List.nil_append, List.cons_append, List.map_cons,
    List.map_nil, List.foldl_cons, List.foldl_nil, hbyte]
  omega

/-- AL's number is the bit length, wherever 64 bits hold it. -/
theorem beNumber_alField {mode : AlMode} {h : Bytes} {a : Option Bytes} (hle : alBytes mode h a < 2 ^ 61) :
    beNumber (alField mode h a) = 8 * alBytes mode h a := by
  have hbits : alBytes mode h a * 8 < 2 ^ 64 := by omega
  rw [alField, Nat.mod_eq_of_lt hbits, beNumber_be64 hbits, Nat.mul_comm]

/-- Settles O37: the bit length is far below `2^64`, so AL's number is the bit length itself. -/
theorem alIsTheBigEndianBitLength : Obligations.AlIsTheBigEndianBitLength := by
  intro h a hh ha
  have hauth := length_authInput_le hh ha
  exact ⟨length_be64 _, length_be64 _,
    beNumber_alField (mode := .authInput) (show (authInput h a).length < _ by omega),
    beNumber_alField (mode := .headerOnly) (show h.length < _ by omega)⟩

/-! ### The hashes and the tag (R93, R96) -/

/-- Settles O38: each hash is eight words, SHA-384's cut to 48 bytes. -/
theorem hashesHaveTheirStatedLengths : Obligations.HashesHaveTheirStatedLengths :=
  fun m => ⟨length_sha256 m, length_sha384 m, length_sha512 m⟩

theorem length_hmac {v : BitVec 2} {p : Par} (h : par v = some p) (key m : Bytes) : (hmac p key m).length = p.dlen :=
  length_hashOf h _

theorem par_dlen_eq {v : BitVec 2} {p : Par} (h : par v = some p) : p.dlen = 2 * p.tlen := by
  rcases par_cases h with ⟨-, rfl⟩ | ⟨-, rfl⟩ | ⟨-, rfl⟩ <;> rfl

/-- Settles O39: the digest is the tag and what the cut drops, which is as long. -/
theorem tagIsHalfTheDigest : Obligations.TagIsHalfTheDigest := by
  intro v p cek iv h a c mode hp
  refine ⟨length_computeTag hp .., _, List.take_append_drop (p.dlen / 2) _, ?_⟩
  rw [List.length_drop, length_hmac hp, par_dlen_eq hp]
  omega

/-! ### CTEQ (R97) -/

theorem par_tlen_pos {v : BitVec 2} {p : Par} (h : par v = some p) : 0 < p.tlen := by
  rcases par_cases h with ⟨-, rfl⟩ | ⟨-, rfl⟩ | ⟨-, rfl⟩ <;> decide

/-- CTEQ answers false where the declared length is not the tag's, whatever the bytes: `diff` starts at 1. -/
theorem ctEq_eq_false_of_length_ne {t s : Bytes} {tlen slen : Nat} (ht : t.length = tlen) (hle : tlen ≤ 32)
    (hs : s.length = 32) (hne : slen ≠ tlen) : ctEq t tlen s slen = false :=
  Bool.eq_false_iff.mpr fun h => hne ((ctEq_iff ht hle hs).mp h).1

/-- Settles O40: CTEQ by its lemma; a tag has 1 to 32 bytes, so a declared length of 0 or above 32 is not the tag's. -/
theorem compareIsExactEquality : Obligations.CompareIsExactEquality := by
  intro v p t s slen hp ht hs
  have hle := par_tlen_le hp
  have hpos := par_tlen_pos hp
  exact ⟨ctEq_iff ht hle hs, fun h => ctEq_eq_false_of_length_ne ht hle hs (by omega)⟩

end Sys2Proof.Machine

/-! PROOFS. The statements of 40_tag_protocol about the engine: what ENC and DEC give it, and the reference engine. -/

namespace Sys2Proof.Machine

/-! ### What the engine is given (R102, R103) -/

section
variable {eng eng' : Engine} {s : State}

theorem engineEncrypt_congr {k iv d : Bytes} (h : eng .enc k iv d = eng' .enc k iv d) :
    engineEncrypt eng k iv d = engineEncrypt eng' k iv d := by
  rw [engineEncrypt, engineEncrypt, h]

theorem engineDecrypt_congr {k iv d : Bytes} (h : eng .dec k iv d = eng' .dec k iv d) :
    engineDecrypt eng k iv d = engineDecrypt eng' k iv d := by
  rw [engineDecrypt, engineDecrypt, h]

theorem encResult_congr (h : engineEncrypt eng (keySplit (cekOf s)).2 (ivOf s) (inputOf s) =
    engineEncrypt eng' (keySplit (cekOf s)).2 (ivOf s) (inputOf s)) : encResult eng s = encResult eng' s := by
  rw [encResult, encResult, h]

theorem decResult_congr (h : engineDecrypt eng (keySplit (cekOf s)).2 (ivOf s) (inputOf s) =
    engineDecrypt eng' (keySplit (cekOf s)).2 (ivOf s) (inputOf s)) : decResult eng s = decResult eng' s := by
  rw [decResult, decResult, h]

/-- The compare of DEC: the supplied tag against the tag recomputed over the input (41_content_ops R112). -/
def suppliedTagMatches (p : Par) (s : State) : Bool :=
  ctEq (computeTag p (cekOf s) (ivOf s) (headerOf s) (aadOf s) (inputOf s) s.ops.ctrl.alMode) p.tlen
    s.win.tagInw.toList s.ops.tagInLen.toNat

theorem decResult_of_precheck_error {e : ErrCode} (h : precheck .dec s = .error e) (eng : Engine) :
    decResult eng s = .error { code := e, matched := false } := by
  rw [decResult, h]

theorem decResult_of_mismatch {p : Par} (hp : precheck .dec s = .ok p) (hm : suppliedTagMatches p s = false)
    (eng : Engine) : decResult eng s = .error { code := .authFail, matched := false } := by
  rw [decResult, hp]
  exact if_neg (Bool.eq_false_iff.mp hm)

/-- Past its compare, DEC succeeds or ends in ENGINE_FAILURE, never in AUTH_FAIL. -/
theorem decResult_code_of_match {p : Par} (hp : precheck .dec s = .ok p) (hm : suppliedTagMatches p s = true)
    (eng : Engine) : (resultOf (decResult eng s)).code ≠ .authFail := by
  rw [suppliedTagMatches] at hm
  cases h : engineDecrypt eng (keySplit (cekOf s)).2 (ivOf s) (inputOf s) with
  | error e =>
    obtain rfl := engineDecrypt_error h
    simp [decResult, hp, hm, h, resultOf, failureResult]
  | ok pt => simp [decResult, hp, hm, h, resultOf]

/-- The engine is called past the compare only (41_content_ops R113), so AUTH_FAIL does not depend on it. -/
theorem decResult_eq_of_authFail (h : (resultOf (decResult eng s)).code = .authFail) (eng' : Engine) :
    decResult eng' s = decResult eng s := by
  cases hp : precheck .dec s with
  | error e => rw [decResult_of_precheck_error hp, decResult_of_precheck_error hp]
  | ok p =>
    cases hm : suppliedTagMatches p s with
    | false => rw [decResult_of_mismatch hp hm, decResult_of_mismatch hp hm]
    | true => exact absurd h (decResult_code_of_match hp hm eng)

end

/-- Settles O32: each Exec function makes one request of the engine, and DEC makes it past its compare only. -/
theorem engineIsGivenOnlyKeyIvAndData : Obligations.EngineIsGivenOnlyKeyIvAndData := by
  intro eng eng' s
  refine ⟨fun h => ?_, fun h => ?_, fun t ht hcode => ?_⟩
  · rw [execEncWith, encResult_congr (engineEncrypt_congr h), execEncWith]
  · rw [execDecWith, decResult_congr (engineDecrypt_congr h), execDecWith]
  · cases ht
    rw [execDecWith, decResult_eq_of_authFail hcode]

/-! ### xor of byte strings -/

theorem length_xorBytes {n : Nat} {x y : Bytes} (hx : x.length = n) (hy : y.length = n) :
    (xorBytes x y).length = n := by
  rw [xorBytes, List.length_zipWith, hx, hy, Nat.min_self]

theorem xorBytes_xorBytes_cancel {x y : Bytes} (h : x.length = y.length) : xorBytes (xorBytes x y) y = x := by
  refine List.ext_getElem (length_xorBytes (length_xorBytes h rfl) rfl |>.trans h.symm) fun i _ _ => ?_
  simp only [xorBytes, List.getElem_zipWith, BitVec.xor_assoc, BitVec.xor_self, BitVec.xor_zero]

/-! ### PKCS#7 (R105) -/

theorem length_pkcsPad (p : Bytes) : (pkcsPad p).length = 16 * (p.length / 16 + 1) := by
  rw [pkcsPad, List.length_append, List.length_replicate]
  omega

theorem toNat_padByte {n : Nat} (h : n ≤ 16) : (BitVec.ofNat 8 n).toNat = n := by
  rw [BitVec.toNat_ofNat]
  omega

/-- Unpadding a block-aligned string that ends in `n` bytes of value `n`. -/
theorem pkcsUnpad_append_replicate {p : Bytes} {n : Nat} (hpos : 1 ≤ n) (hle : n ≤ 16)
    (hmod : (p.length + n) % 16 = 0) :
    pkcsUnpad (p ++ List.replicate n (BitVec.ofNat 8 n)) = .ok p := by
  have hlen : (p ++ List.replicate n (BitVec.ofNat 8 n)).length = p.length + n := by simp
  have hlast : ((p ++ List.replicate n (BitVec.ofNat 8 n)).getLastD 0).toNat = n := by
    obtain ⟨m, rfl⟩ := Nat.exists_eq_add_of_le' hpos
    rw [List.replicate_succ', ← List.append_assoc, List.getLastD_concat, toNat_padByte hle]
  simp only [pkcsUnpad, hlast, hlen, Nat.add_sub_cancel, List.drop_left, List.take_left]
  rw [if_neg (by omega), if_neg (by omega), if_neg (not_not.mpr rfl)]

theorem pkcsUnpad_pkcsPad (p : Bytes) : pkcsUnpad (pkcsPad p) = .ok p :=
  pkcsUnpad_append_replicate (by omega) (by omega) (by omega)

/-! ### CBC (R106, R107) -/

section
variable {b : BlockCipher} {k : Bytes} (hb : b.Valid) (hk : k.length ∈ [16, 24, 32])
include hb hk

theorem length_enc_xorBytes {x prev : Bytes} (hx : x.length = 16) (hprev : prev.length = 16) :
    (b.enc k (xorBytes x prev)).length = 16 :=
  hb.enc_length k _ hk (length_xorBytes hx hprev)

theorem length_cbcEncrypt {prev : Bytes} {xs : List Bytes} (hprev : prev.length = 16)
    (hxs : ∀ x ∈ xs, x.length = 16) : (cbcEncrypt b k prev xs).length = 16 * xs.length := by
  induction xs generalizing prev with
  | nil => rfl
  | cons x xs ih =>
    have hc := length_enc_xorBytes hb hk (hxs x List.mem_cons_self) hprev
    rw [cbcEncrypt, List.length_append, hc, ih hc fun y hy => hxs y (List.mem_cons_of_mem x hy), List.length_cons]
    omega

/-- Each cipher block is the `prev` of the next on both sides, so that decryption undoes each xor. -/
theorem cbcDecrypt_cbcEncrypt {prev : Bytes} {xs : List Bytes} (hprev : prev.length = 16)
    (hxs : ∀ x ∈ xs, x.length = 16) :
    cbcDecrypt b k prev (chunks 16 xs.length (cbcEncrypt b k prev xs)) = xs.flatten := by
  induction xs generalizing prev with
  | nil => rfl
  | cons x xs ih =>
    have hx := hxs x List.mem_cons_self
    have hc := length_enc_xorBytes hb hk hx hprev
    have hundo : xorBytes (b.dec k (b.enc k (xorBytes x prev))) prev = x := by
      rw [hb.dec_enc k _ hk (length_xorBytes hx hprev), xorBytes_xorBytes_cancel (hx.trans hprev.symm)]
    rw [cbcEncrypt, List.length_cons, chunks_append hc, cbcDecrypt, hundo,
      ih hc fun y hy => hxs y (List.mem_cons_of_mem x hy), List.flatten_cons]

/-! ### The reference engine (R106, R107) -/

/-- RefDec of the CBC encryption of a padded string's blocks. -/
theorem refDec_cbcEncrypt {iv p : Bytes} {xs : List Bytes} (hiv : iv.length = 16) (hxs : ∀ x ∈ xs, x.length = 16)
    (hp : xs.flatten = pkcsPad p) (hne : xs ≠ []) : refDec b k iv (cbcEncrypt b k iv xs) = .ok p := by
  have hlen := length_cbcEncrypt hb hk hiv hxs
  have hpos := List.length_pos_of_ne_nil hne
  rw [refDec, if_neg (by omega), hlen, Nat.mul_div_cancel_left _ (by decide), cbcDecrypt_cbcEncrypt hb hk hiv hxs, hp,
    pkcsUnpad_pkcsPad]

end

/-- Settles O41: the padded string is a list of 16-byte blocks; CBC gives them back, and the unpadding the string. -/
theorem referenceEngineRoundTrips : Obligations.ReferenceEngineRoundTrips := by
  intro b k iv p hb hk hiv
  have hpad := length_pkcsPad p
  have hblocks : 16 * ((pkcsPad p).length / 16) = (pkcsPad p).length := by omega
  have hxs := length_of_mem_chunks hblocks.le
  have hcount := length_chunks 16 ((pkcsPad p).length / 16) (pkcsPad p)
  have hne := List.ne_nil_of_length_pos (hcount.symm ▸ (by omega : 0 < (pkcsPad p).length / 16))
  refine ⟨_, rfl, ?_, refDec_cbcEncrypt hb hk hiv hxs (flatten_chunks hblocks) hne⟩
  rw [length_cbcEncrypt hb hk hiv hxs, hcount, hblocks, hpad]

end Sys2Proof.Machine

/-! PROOFS. The statements of 41_content_ops: the next state of ENC and DEC where Precheck passes, the ciphertext in the
RAM, the round trip, and the tag's independence of the encKey half. -/

namespace Sys2Proof.Machine

open Sys2Proof.Claims

/-! ### The states after a completion -/

/-- A success Result (43_control_ops R126) that writes `w` and shows `tag`. -/
def successResult (w : Option (Nat × Bytes)) (outLen : Nat) (tag : Bytes) (authOk : Bool) : Result where
  code := .none
  ramWrite := w
  outLen := BitVec.ofNat 16 outLen
  tagOut := windowOf 32 tag
  tagOutLen := BitVec.ofNat 6 tag.length
  authOk := authOk
  zeroRam := false

theorem complete_successResult (w : Option (Nat × Bytes)) (outLen : Nat) (tag : Bytes) (authOk : Bool) (s : State) :
    complete (successResult w outLen tag authOk) s =
      succeeded s ((successResult w outLen tag authOk).ramAfter s.ram) outLen tag authOk := rfl

theorem complete_failureResult {e : Raised} (h : e.code ≠ .none) (s : State) :
    complete (failureResult e) s = failed s e.code e.matched := by
  have herr := Flags.atCommit_error s.flags e.code e.matched h
  simp only [complete, finish, clearTransient, commit, failureResult, Flags.atCommit] at herr ⊢
  rw [herr]
  rfl

theorem windowOf_nil (n : Nat) : windowOf n [] = Vector.replicate n 0 := by
  simp [windowOf, zeros]

/-! ### What Precheck gives a command: the key halves, AL and the tag -/

theorem precheck_ok_iff_passes {op : CryptoOp} {s : State} {p : Par} : precheck op s = .ok p ↔ Passes op s p := by
  rw [precheck_ok_iff, rangesOk_iff]
  rfl

theorem alBytes_operands_lt (mode : AlMode) (s : State) : alBytes mode (headerOf s) (aadOf s) < 2 ^ 61 := by
  have hhdr : (headerOf s).length ≤ 0xFFFF := by
    rw [headerOf, Memory.length_readBytes]
    omega
  have haad : ∀ x, aadOf s = some x → x.length ≤ 0xFFFF := by
    intro x hx
    obtain ⟨-, hread⟩ := Option.ite_none_right_eq_some.mp hx
    rw [← Option.some.inj hread, Memory.length_readBytes]
    omega
  have hauth := length_authInput_le hhdr haad
  cases mode <;> simp only [alBytes] <;> omega

/-- AL has no wrap for the operands of a state (40_tag_protocol R91). -/
theorem alField_operands (mode : AlMode) (s : State) :
    alField mode (headerOf s) (aadOf s) = be64 (8 * alBytes mode (headerOf s) (aadOf s)) := by
  have hlt := alBytes_operands_lt mode s
  rw [alField, Nat.mod_eq_of_lt (by omega), Nat.mul_comm]

section
variable {op : CryptoOp} {s : State} {p : Par} (h : Passes op s p)
include h

theorem par_of_passes : par s.ops.ctrl.variant = some p := by
  obtain ⟨-, hpar, -⟩ := h
  exact hpar

theorem half_length_cekOf : (cekOf s).length / 2 = p.halfBytes := by
  rw [length_cekOf (precheck_ok_iff_passes.mpr h)]
  rcases par_cases (par_of_passes h) with ⟨-, rfl⟩ | ⟨-, rfl⟩ | ⟨-, rfl⟩ <;> rfl

theorem keySplit_cekOf : keySplit (cekOf s) = ((cekOf s).take p.halfBytes, (cekOf s).drop p.halfBytes) := by
  rw [keySplit, half_length_cekOf h]

theorem computeTag_eq_tagOver (c : Bytes) :
    computeTag p (cekOf s) (ivOf s) (headerOf s) (aadOf s) c s.ops.ctrl.alMode = tagOver s p c := by
  have htlen : p.dlen / 2 = p.tlen := by
    have := par_dlen_eq (par_of_passes h)
    omega
  rw [computeTag, keySplit_cekOf h, macInput, alField_operands, htlen, tagOver]
  rfl

theorem length_tagOver (c : Bytes) : (tagOver s p c).length = p.tlen := by
  rw [← computeTag_eq_tagOver h]
  exact length_computeTag (par_of_passes h) ..

/-- DEC's compare decides whether the supplied tag is the tag over the input (40_tag_protocol R97). -/
theorem suppliedTagMatches_iff : suppliedTagMatches p s = true ↔ TagMatches s p := by
  rw [suppliedTagMatches, computeTag_eq_tagOver h]
  exact ctEq_iff (length_tagOver h _) (par_tlen_le (par_of_passes h)) Vector.length_toList

end

/-! ### ENC -/

theorem encNext_of_ok {eng : Engine} {s : State} {p : Par} {c : Bytes}
    (he : eng .enc ((cekOf s).drop p.halfBytes) (ivOf s) (inputOf s) = .ok c)
    (hlen : c.length = 16 * (s.ops.inLen.toNat / 16 + 1)) :
    encNext eng s p =
      succeeded s (Memory.writeBytes s.ram s.ops.outOff.toNat c) c.length (tagOver s p c) false := by
  rw [encNext, he]
  exact if_pos hlen

section
variable {eng : Engine} {s : State} {p : Par} (h : Passes .enc s p)
include h

theorem encResult_of_engine_error {e : ErrCode}
    (he : engineEncrypt eng ((cekOf s).drop p.halfBytes) (ivOf s) (inputOf s) = .error e) :
    encResult eng s = .error { code := e, matched := false } := by
  simp only [encResult, precheck_ok_iff_passes.mpr h, keySplit_cekOf h, he]

theorem encResult_of_engine_ok {c : Bytes}
    (hc : engineEncrypt eng ((cekOf s).drop p.halfBytes) (ivOf s) (inputOf s) = .ok c) :
    encResult eng s = .ok (successResult (some (s.ops.outOff.toNat, c)) c.length (tagOver s p c) false) := by
  simp only [encResult, precheck_ok_iff_passes.mpr h, keySplit_cekOf h, hc, computeTag_eq_tagOver h, successResult,
    length_tagOver h]

/-- ENC commits `encNext`, for each of the three responses of R100: fail, a wrong length, the padded length. -/
theorem complete_encResult (eng : Engine) : complete (resultOf (encResult eng s)) s = encNext eng s p := by
  cases he : eng .enc ((cekOf s).drop p.halfBytes) (ivOf s) (inputOf s) with
  | fail =>
    rw [encResult_of_engine_error h (e := .engineFailure) (by rw [engineEncrypt, he]), encNext, he]
    exact complete_failureResult (by decide) s
  | ok c =>
    by_cases hlen : c.length = 16 * ((inputOf s).length / 16 + 1)
    · rw [encResult_of_engine_ok h (c := c) (by simp [engineEncrypt, he, hlen]),
        encNext_of_ok he (length_inputOf s ▸ hlen)]
      rfl
    · rw [encResult_of_engine_error h (e := .engineFailure) (by simp [engineEncrypt, he, hlen]), encNext, he]
      exact (complete_failureResult (by decide) s).trans (if_neg (length_inputOf s ▸ hlen)).symm

end

/-- Settles O18: what ENC commits is a success Result or an ENGINE_FAILURE, by the engine's response. -/
theorem encCompletes : Obligations.EncCompletes := by
  intro s p h
  have hnext (eng : Engine) : execEncWith eng s = .next (encNext eng s p) :=
    congrArg Host.Outcome.next (complete_encResult h eng)
  exact ⟨hnext Config.engine, hnext⟩

/-! ### DEC -/

theorem decNext_of_ok {eng : Engine} {s : State} {p : Par} {pt : Bytes}
    (he : eng .dec ((cekOf s).drop p.halfBytes) (ivOf s) (inputOf s) = .ok pt)
    (hlen : pt.length ≤ s.ops.inLen.toNat) :
    decNext eng s p = succeeded s (Memory.writeBytes s.ram s.ops.outOff.toNat pt) pt.length [] true := by
  rw [decNext, he]
  exact if_pos hlen

section
variable {eng : Engine} {s : State} {p : Par} (h : Passes .dec s p)
include h

section
variable (hm : TagMatches s p)
include hm

theorem decResult_of_engine_error {e : ErrCode}
    (he : engineDecrypt eng ((cekOf s).drop p.halfBytes) (ivOf s) (inputOf s) = .error e) :
    decResult eng s = .error { code := e, matched := true } := by
  have hq := (suppliedTagMatches_iff h).mpr hm
  rw [suppliedTagMatches] at hq
  simp only [decResult, precheck_ok_iff_passes.mpr h, keySplit_cekOf h, hq, if_true, he]

theorem decResult_of_engine_ok {pt : Bytes}
    (hd : engineDecrypt eng ((cekOf s).drop p.halfBytes) (ivOf s) (inputOf s) = .ok pt) :
    decResult eng s = .ok (successResult (some (s.ops.outOff.toNat, pt)) pt.length [] true) := by
  have hq := (suppliedTagMatches_iff h).mpr hm
  rw [suppliedTagMatches] at hq
  simp only [decResult, precheck_ok_iff_passes.mpr h, keySplit_cekOf h, hq, if_true, hd, successResult, windowOf_nil]
  rfl

/-- DEC past its compare commits `decNext`, for each response of R101: fail, too many bytes, a plaintext. -/
theorem complete_decResult (eng : Engine) : complete (resultOf (decResult eng s)) s = decNext eng s p := by
  cases he : eng .dec ((cekOf s).drop p.halfBytes) (ivOf s) (inputOf s) with
  | fail =>
    rw [decResult_of_engine_error h hm (e := .engineFailure) (by rw [engineDecrypt, he]), decNext, he]
    exact complete_failureResult (by decide) s
  | ok pt =>
    by_cases hlen : pt.length ≤ (inputOf s).length
    · rw [decResult_of_engine_ok h hm (pt := pt) (by simp [engineDecrypt, he, hlen]),
        decNext_of_ok he (length_inputOf s ▸ hlen)]
      rfl
    · rw [decResult_of_engine_error h hm (e := .engineFailure) (by simp [engineDecrypt, he, Nat.lt_of_not_le hlen]),
        decNext, he]
      exact (complete_failureResult (by decide) s).trans (if_neg (length_inputOf s ▸ hlen)).symm

end

/-- A tag that does not match is AUTH_FAIL with any engine: none is called (41_content_ops R113). -/
theorem complete_decResult_of_mismatch (hm : ¬ TagMatches s p) (eng : Engine) :
    complete (resultOf (decResult eng s)) s = failed s .authFail false := by
  have hq := Bool.eq_false_iff.mpr (mt (suppliedTagMatches_iff h).mp hm)
  rw [decResult_of_mismatch (precheck_ok_iff_passes.mpr h) hq]
  exact complete_failureResult (by decide) s

end

/-- Settles O19: the compare decides, and past it the engine's response. -/
theorem decCompletes : Obligations.DecCompletes := by
  intro s p h
  refine ⟨fun hm => congrArg Host.Outcome.next (complete_decResult_of_mismatch h hm Config.engine), fun hm => ?_⟩
  have hnext (eng : Engine) : execDecWith eng s = .next (decNext eng s p) :=
    congrArg Host.Outcome.next (complete_decResult h hm eng)
  exact ⟨hnext Config.engine, hnext⟩

/-! ### The output in the RAM (R108, R110) -/

/-- A successful command leaves its output at OUT_OFF, where the region lies in the RAM. -/
theorem outputOf_succeeded {s : State} (hw : Memory.wf s.ram) {c : Bytes} (hc : s.ops.outOff.toNat + c.length ≤ 4096)
    (tag : Bytes) (authOk : Bool) :
    outputOf (succeeded s (Memory.writeBytes s.ram s.ops.outOff.toNat c) c.length tag authOk) = c := by
  have hlen : (BitVec.ofNat 16 c.length).toNat = c.length := by
    rw [BitVec.toNat_ofNat]
    omega
  simp only [outputOf, succeeded, hlen]
  exact Memory.readBytes_writeBytes hw hc

theorem encOutput_le_of_passes {s : State} {p : Par} (h : Passes .enc s p) {c : Bytes}
    (hlen : c.length = 16 * (s.ops.inLen.toNat / 16 + 1)) : s.ops.outOff.toNat + c.length ≤ 4096 := by
  obtain ⟨-, -, -, -, -, -, hout, -⟩ := h
  exact hlen ▸ hout rfl

theorem decOutput_le_of_passes {s : State} {p : Par} (h : Passes .dec s p) {pt : Bytes}
    (hlen : pt.length ≤ s.ops.inLen.toNat) : s.ops.outOff.toNat + pt.length ≤ 4096 := by
  obtain ⟨-, -, -, -, -, -, -, hout⟩ := h
  exact Nat.le_trans (Nat.add_le_add_left hlen _) (hout rfl)

/-- Settles O28: a state without an error code is ENC's success, whose output region Precheck keeps in the RAM. -/
theorem encLeavesTheCiphertextInRam : Obligations.EncLeavesTheCiphertextInRam := by
  intro eng s t hw ht hcode
  cases ht
  cases hr : encResult eng s with
  | error e =>
    rw [hr] at hcode
    exact absurd hcode (encResult_error hr).1
  | ok r =>
    obtain ⟨p, c, hp, hc, -⟩ := encResult_ok hr
    have h := precheck_ok_iff_passes.mp hp
    obtain ⟨he, hlen⟩ := engineEncrypt_ok hc
    rw [keySplit_cekOf h] at hc
    have hread := outputOf_succeeded hw (encOutput_le_of_passes h (length_inputOf s ▸ hlen)) (tagOver s p c) false
    rw [← hr, encResult_of_engine_ok h hc, resultOf, complete_successResult]
    exact ⟨he.trans (congrArg _ hread.symm), hread.symm ▸ hlen⟩

/-! ### The round trip (R115) -/

theorem tagOver_congr {s s' : State} (h : SameKeyAndContext s s') (p : Par) (c : Bytes) :
    tagOver s' p c = tagOver s p c := by
  obtain ⟨hctrl, hcek, hiv, hhdr, haad⟩ := h
  simp only [tagOver, hctrl, hcek, hiv, hhdr, haad]

/-- The tag over the input, supplied as TAGOUTW and TAGOUTLEN show it, matches. -/
theorem tagMatches_of_shown {s : State} {p : Par} {tag : Bytes} (h : Passes .dec s p)
    (htag : tag = tagOver s p (inputOf s)) (hwin : s.win.tagInw = windowOf 32 tag)
    (hlen : s.ops.tagInLen = BitVec.ofNat 6 tag.length) : TagMatches s p := by
  have htlen : tag.length = p.tlen := htag ▸ length_tagOver h _
  have hle := par_tlen_le (par_of_passes h)
  refine ⟨?_, ?_⟩
  · rw [hlen, htlen, BitVec.toNat_ofNat]
    omega
  · rw [hwin, windowOf_toList_of_length (htlen ▸ hle), ← htlen, List.take_left, htag]

/-- Settles O30: DEC's compare sees the tag ENC showed, and the reference engine decrypts what it encrypted. -/
theorem encThenDecRoundTrips : Obligations.EncThenDecRoundTrips := by
  intro b s p hb hw h
  have hkey : ((cekOf s).drop p.halfBytes).length ∈ [16, 24, 32] := by
    rw [List.length_drop, length_cekOf (precheck_ok_iff_passes.mpr h)]
    rcases par_cases (par_of_passes h) with ⟨-, rfl⟩ | ⟨-, rfl⟩ | ⟨-, rfl⟩ <;> decide
  obtain ⟨c, henc, hlen, hdec⟩ := referenceEngineRoundTrips b _ (ivOf s) (inputOf s) hb hkey (length_ivOf s)
  have hlen' : c.length = 16 * (s.ops.inLen.toNat / 16 + 1) := length_inputOf s ▸ hlen
  have hread := outputOf_succeeded hw (encOutput_le_of_passes h hlen') (tagOver s p c) false
  refine ⟨_, ((encCompletes s p h).2 _).trans (congrArg _ (encNext_of_ok henc hlen')), rfl, ?_⟩
  intro s' hw' hctx hin htag htagLen h'
  rw [hread] at hin
  have hmatch : TagMatches s' p := tagMatches_of_shown h' (by rw [hin, tagOver_congr hctx]) htag htagLen
  obtain ⟨-, hcek, hiv, -⟩ := hctx
  rw [← hcek, ← hiv, ← hin] at hdec
  have hle : (inputOf s).length ≤ s'.ops.inLen.toNat := by
    rw [← length_inputOf s', hin]
    omega
  exact ⟨_, (((decCompletes s' p h').2 hmatch).2 _).trans (congrArg _ (decNext_of_ok hdec hle)), rfl, rfl,
    outputOf_succeeded hw' (decOutput_le_of_passes h' hle) [] true⟩

/-! ### The encKey half (R116) -/

theorem keySplit_append_fst {macKey encKey : Bytes} (h : encKey.length = macKey.length) :
    (keySplit (macKey ++ encKey)).1 = macKey := by
  have hhalf : (macKey ++ encKey).length / 2 = macKey.length := by
    rw [List.length_append]
    omega
  rw [keySplit, hhalf, List.take_left]

/-- Settles O33: the tag is computed from the first half of the CEK, which is the macKey half. -/
theorem encKeyHalfDoesNotEnterTheTag : Obligations.EncKeyHalfDoesNotEnterTheTag := by
  intro p macKey encKey encKey' iv h a c mode hlen hlen'
  rw [computeTag, computeTag, keySplit_append_fst hlen, keySplit_append_fst hlen']

end Sys2Proof.Machine

/-! PROOFS. The statements of 42_tag_ops: the next state of TAG and VERIFY where Precheck passes, and their agreement with
ENC and DEC. -/

namespace Sys2Proof.Machine

open Sys2Proof.Claims

/-! ### TAG (R117, R118) -/

theorem tagResult_of_passes {s : State} {p : Par} (h : Passes .tag s p) :
    tagResult s = .ok (successResult none 0 (tagOver s p (inputOf s)) false) := by
  simp only [tagResult, precheck_ok_iff_passes.mpr h, computeTag_eq_tagOver h, successResult, length_tagOver h]
  rfl

/-- Settles O20: TAG commits a success Result that shows the tag over the input and writes no RAM byte. -/
theorem tagCompletes : Obligations.TagCompletes := by
  intro s p h
  rw [exec, execTag, tagResult_of_passes h, resultOf, complete_successResult]
  rfl

/-! ### VERIFY (R120, R121) -/

section
variable {s : State} {p : Par} (h : Passes .verify s p)
include h

/-- Past Precheck VERIFY is its compare (40_tag_protocol R97). -/
theorem verifyResult_of_passes : verifyResult s =
    if suppliedTagMatches p s then .ok (successResult none 0 [] true)
    else .error { code := .authFail, matched := false } := by
  simp only [verifyResult, precheck_ok_iff_passes.mpr h, suppliedTagMatches, successResult, windowOf_nil]
  rfl

theorem verifyResult_of_match (hm : TagMatches s p) : verifyResult s = .ok (successResult none 0 [] true) :=
  (verifyResult_of_passes h).trans (if_pos ((suppliedTagMatches_iff h).mpr hm))

theorem verifyResult_of_mismatch (hm : ¬ TagMatches s p) :
    verifyResult s = .error { code := .authFail, matched := false } :=
  (verifyResult_of_passes h).trans (if_neg (mt (suppliedTagMatches_iff h).mp hm))

end

/-- Settles O21: the compare decides between a success Result without output and AUTH_FAIL. -/
theorem verifyCompletes : Obligations.VerifyCompletes := by
  refine fun s p h => ⟨fun hm => ?_, fun hm => ?_⟩
  · rw [exec, execVerify, verifyResult_of_match h hm, resultOf, complete_successResult]
    rfl
  · rw [exec, execVerify, verifyResult_of_mismatch h hm, resultOf, complete_failureResult (by decide)]

/-! ### TAG after ENC (R119) -/

/-- ENC's next state without an error code is the success with a ciphertext of the padded length. -/
theorem encNext_of_errCode_none {eng : Engine} {s : State} {p : Par}
    (h : (encNext eng s p).flags.errCode = .none) :
    ∃ c, c.length = 16 * (s.ops.inLen.toNat / 16 + 1) ∧
      encNext eng s p =
        succeeded s (Memory.writeBytes s.ram s.ops.outOff.toNat c) c.length (tagOver s p c) false := by
  unfold encNext at h ⊢
  split at h
  · cases h
  · next c _ =>
    split at h
    · next hlen => exact ⟨c, hlen, if_pos hlen⟩
    · cases h

/-- Settles O29: ENC's tag is the tag over its ciphertext, which is the output region TAG is given as its input. -/
theorem encAndTagAgree : Obligations.EncAndTagAgree := by
  intro eng s t s' p hw h ht hcode hctx hin h'
  cases ht.symm.trans ((encCompletes s p h).2 eng)
  obtain ⟨c, hlen, hnext⟩ := encNext_of_errCode_none hcode
  rw [hnext, outputOf_succeeded hw (encOutput_le_of_passes h hlen)] at hin
  have htag : tagOver s' p (inputOf s') = tagOver s p c := by rw [hin, tagOver_congr hctx]
  refine ⟨_, tagCompletes s' p h', rfl, ?_⟩
  rw [htag, hnext]
  exact ⟨rfl, rfl⟩

/-! ### VERIFY against DEC (R122) -/

/-- VERIFY makes DEC's checks but the one of the output region. -/
theorem passes_verify_of_dec {s : State} {p : Par} (h : Passes .dec s p) : Passes .verify s p := by
  obtain ⟨hrdy, hpar, hcek, hhdr, haad, hin, -, -⟩ := h
  exact ⟨hrdy, hpar, hcek, hhdr, haad, hin, nofun, nofun⟩

/-- DEC past its compare has AUTHOK, with or without an ENGINE_FAILURE (41_content_ops R114). -/
theorem decNext_authOk (eng : Engine) (s : State) (p : Par) : (decNext eng s p).flags.authOk = true ∧
    ((decNext eng s p).flags.errCode = .none ∨ (decNext eng s p).flags.errCode = .engineFailure) := by
  unfold decNext
  split
  · exact ⟨rfl, .inr rfl⟩
  · split
    · exact ⟨rfl, .inl rfl⟩
    · exact ⟨rfl, .inr rfl⟩

/-- Settles O31: both commands make the same compare; past it DEC has AUTHOK, and before it both have AUTH_FAIL. -/
theorem verifyAndDecAgree : Obligations.VerifyAndDecAgree := by
  intro s p h
  have hverify := verifyCompletes s p (passes_verify_of_dec h)
  have hdec := decCompletes s p h
  by_cases hm : TagMatches s p
  · obtain ⟨hauth, hcode⟩ := decNext_authOk Config.engine s p
    refine ⟨_, _, hverify.1 hm, (hdec.2 hm).1, iff_of_true rfl ⟨hauth, hcode⟩, iff_of_false nofun fun hfail => ?_⟩
    simp [hfail] at hcode
  · exact ⟨_, _, hverify.2 hm, hdec.1 hm, iff_of_false nofun nofun, iff_of_true rfl rfl⟩

end Sys2Proof.Machine

/-! PROOFS. The statements of 43_control_ops: issue, the step that runs the pending command, what every completion does
and leaves alone, and NOP, ZEROIZE and the illegal words. -/

namespace Sys2Proof.Machine

open Sys2Proof.Claims

/-! ### Issue (R124, R125) -/

theorem busWrite_of_legal_busy {off n : Nat} {s : State} (h : legalAccess off n = true)
    (hr : regionAt off ≠ .reg .status) (hs : s.seqState ≠ .idle) (v : Word) :
    busWrite off n v s = .ok (ignoreWrite s) := by
  rw [busWrite_of_decoded (decoded_of_legalAccess h), if_pos h, if_neg hr, if_pos ((busy_iff s).2 hs)]

/-- Settles O51: CMD is a register other than STATUS, so its write is issue in IDLE and is ignored while busy. -/
theorem issueIsAcceptedExactlyInIdle : Obligations.IssueIsAcceptedExactlyInIdle := by
  refine fun w s => ⟨fun hs => ?_, fun hs => busWrite_of_legal_busy rfl (by decide) hs w⟩
  exact ⟨issue w s, busWrite_reg_idle (r := .cmd) rfl rfl (by decide) hs w, rfl, rfl, rfl⟩

/-! ### The completion step (R127, R128) -/

theorem seqTurn_of_exec {s : State} (hr : s.rst = false) (hs : s.seqState = .exec) :
    seqTurn s = exec (decode s.pending) s := by
  simp [seqTurn, hr, hs]

theorem defaultTurn_of_busy {s : State} (hs : s.seqState ≠ .idle) : defaultTurn s = .seq := by
  simp [defaultTurn, (busy_iff s).2 hs]

theorem nextTurn_nil {s : State} (h : s.schedule = []) : nextTurn s = (defaultTurn s, s) := by
  simp [nextTurn, h]

theorem tableWord_toNat (w : Word) : tableWord 32 w.toNat = w := by
  rw [tableWord, Nat.mod_eq_of_lt w.isLt, BitVec.ofNat_toNat, BitVec.setWidth_eq]

/-- A turn laid down for SEQ runs the pending command. -/
theorem step_seq_of_exec {s : State} {ts : List Turn} (h : s.schedule = .seq :: ts) (hr : s.rst = false)
    (hs : s.seqState = .exec) : step s = exec (decode s.pending) { s with schedule := ts } :=
  (step_cons h).trans (seqTurn_of_exec hr hs)

/-- Settles O4: in EXEC the turn is SEQ's, laid down or by default, and SEQ's turn is `exec`. -/
theorem stepRunsPendingCommand : Obligations.StepRunsPendingCommand := by
  refine ⟨fun s ts => step_seq_of_exec, fun s h hr hs => ?_, fun s w => ?_⟩
  · rw [step, nextTurn_nil h, defaultTurn_of_busy (by simp [hs])]
    exact seqTurn_of_exec hr hs
  · have hstep := step_seq_of_exec (s := s.withFetchWord 32 w.toNat) rfl rfl rfl
    rw [State.withFetchWord, tableWord_toNat] at hstep ⊢
    exact hstep

/-! ### What every completion does, and what it leaves alone (R128-R130, R134, R135) -/

/-- Settles O23: `exec` has no arm without a completion, and a commit's ERR is that its code is not NONE. -/
theorem everyCommandCompletes : Obligations.EveryCommandCompletes := by
  intro i s
  obtain ⟨r, -, ⟨-, h⟩ | ⟨-, h⟩⟩ := exec_cases i s
  · exact ⟨complete r s, h, rfl, rfl, bne_iff_ne⟩
  · exact ⟨completeKeeping r s, h, rfl, rfl, bne_iff_ne⟩

/-- Settles O24: a completion writes the RAM, the outputs, the flags but OVR, SEQSTATE and the windows. -/
theorem commandsLeaveRegistersAlone : Obligations.CommandsLeaveRegistersAlone := by
  intro i s t h
  obtain ⟨r, w, -, rfl⟩ := exec_next h
  exact ⟨rfl, rfl, rfl, rfl, rfl, rfl, rfl, rfl⟩

/-- Settles O25: NOP alone completes without the transient clearing. -/
theorem completionClearsTransientWindows : Obligations.CompletionClearsTransientWindows := by
  intro i s t h
  obtain ⟨r, -, ⟨hi, he⟩ | ⟨hi, he⟩⟩ := exec_cases i s <;> cases he.symm.trans h
  · exact ⟨fun _ => ⟨getD_replicate_zero 64, getD_replicate_zero 16, getD_replicate_zero 32⟩, fun hn => absurd hn hi⟩
  · exact ⟨fun hn => absurd hi hn, fun _ => completeKeeping_win s r⟩

/-! ### NOP, ZEROIZE and the illegal words (R131-R133) -/

/-- Settles O15: NOP commits the empty Result and keeps the windows; STATUS then shows DONE and what it keeps. -/
theorem nopCompletes : Obligations.NopCompletes := by
  refine ⟨rfl, fun s => rfl, fun s => issue_out s _, fun s t hrdy hovr h => ?_⟩
  cases h
  refine ⟨?_, rfl⟩
  simp [statusWord, State.busy, hrdy, hovr, emptyResult, ErrCode.number]

/-- Settles O16: ZEROIZE commits the empty Result that zeroes the RAM, and clears the windows. -/
theorem zeroizeCompletes : Obligations.ZeroizeCompletes :=
  ⟨rfl, fun s => ⟨complete (emptyResult true) s, rfl, rfl, fun _ => rfl⟩⟩

theorem illegalCommand_eq_failed (s : State) : illegalCommand s = .next (failed s .illegalCmd false) :=
  congrArg Host.Outcome.next (complete_failureResult (e := ⟨.illegalCmd, false⟩) (by decide) s)

/-- Settles O17: the opcode map decodes each such word to one of the three illegal rows, which all raise ILLEGAL_CMD. -/
theorem illegalWordsComplete : Obligations.IllegalWordsComplete := by
  refine ⟨fun _ => illegalCommand_eq_failed, fun _ => illegalCommand_eq_failed, fun _ _ => illegalCommand_eq_failed,
    fun w s hw => ?_⟩
  obtain ⟨hupper, -, -, -, -, -, -, h67, h8F⟩ := decodingFollowsTheOpcodeMap w
  have hrow : w.toNat / 16 ≠ 0 ∨ (w.toNat = 6 ∨ w.toNat = 7) ∨ (8 ≤ w.toNat ∧ w.toNat ≤ 15) := by omega
  obtain ⟨u, o, hd⟩ | ⟨l, hd⟩ | ⟨l, hd⟩ := hrow.imp hupper (Or.imp h67 h8F)
  all_goals
    rw [hd]
    exact illegalCommand_eq_failed s

end Sys2Proof.Machine

/-! PROOFS. The statements of 60_exceptions: the order of the checks, the precision of an error completion, and that the
checks read no secret. -/

namespace Sys2Proof.Machine

open Sys2Proof.Claims

/-! ### Each check of Precheck, with those before it passed (R138) -/

section
variable {op : CryptoOp} {s : State}

theorem precheck_of_engRdy_false (hrdy : s.engRdy = false) : precheck op s = .error .engineUnavailable := by
  simp [precheck, hrdy]

theorem precheck_of_variant_three (hrdy : s.engRdy = true) (hv : s.ops.ctrl.variant = 3) :
    precheck op s = .error .illegalCfg := by
  simp [precheck, hrdy, par_eq_none_iff.mpr hv]

variable {p : Par} (hrdy : s.engRdy = true) (hpar : par s.ops.ctrl.variant = some p)
include hrdy hpar

theorem precheck_of_cekLen_ne (hlen : s.ops.cekLen.toNat ≠ p.cekBytes) :
    precheck op s = .error .invalidKeyLength := by
  have hbits : s.ops.cekLen.toNat * 8 ≠ 8 * p.cekBytes := by omega
  simp [precheck, hrdy, hpar, hbits]

/-- The range checks come last: where they alone are left, Precheck fails by them. -/
theorem precheck_of_not_passes (hlen : s.ops.cekLen.toNat = p.cekBytes) (hn : ¬ Passes op s p) :
    precheck op s = .error .rangeError := by
  have hranges : rangesOk op s ≠ true := fun hr =>
    hn (precheck_ok_iff_passes.mp (precheck_ok_iff.mpr ⟨hrdy, hpar, hlen, hr⟩))
  simp [precheck, hrdy, hpar, hlen, Nat.mul_comm, hranges]

end

/-! ### A failed check decides the completion (R138, R145) -/

/-- Every crypto command runs Precheck first, and completes with the error it raises. -/
theorem exec_command_of_precheck_error {op : CryptoOp} {s : State} {e : ErrCode} (h : precheck op s = .error e) :
    exec (command op) s = .next (failed s e false) := by
  have hfail : complete (resultOf (.error ⟨e, false⟩)) s = failed s e false :=
    complete_failureResult (precheck_error_ne_none h) s
  cases op with
  | enc => rw [command, exec, execEnc, execEncWith, encResult, h, hfail]
  | dec => rw [command, exec, execDec, execDecWith, decResult, h, hfail]
  | tag => rw [command, exec, execTag, tagResult, h, hfail]
  | verify => rw [command, exec, execVerify, verifyResult, h, hfail]

/-- Settles O22: Precheck raises the error of the first check that fails, and the command completes with it. -/
theorem precheckErrorsInOrder : Obligations.PrecheckErrorsInOrder := fun _ _ =>
  ⟨fun hrdy => exec_command_of_precheck_error (precheck_of_engRdy_false hrdy),
    fun hrdy hv => exec_command_of_precheck_error (precheck_of_variant_three hrdy hv),
    fun _ hrdy hpar hlen => exec_command_of_precheck_error (precheck_of_cekLen_ne hrdy hpar hlen),
    fun _ hrdy hpar hlen hn => exec_command_of_precheck_error (precheck_of_not_passes hrdy hpar hlen hn)⟩

/-! ### How a command completes, by the outcome of its checks (R138, R140) -/

theorem checkOutcome_of_precheck_error {op : CryptoOp} {s : State} {e : ErrCode} (h : precheck op s = .error e) :
    checkOutcome (command op) s = e := by
  cases op <;> simp [command, checkOutcome, h]

theorem checkOutcome_of_passes {op : CryptoOp} {s : State} {p : Par} (h : Passes op s p) :
    checkOutcome (command op) s = .none := by
  have hok := precheck_ok_iff_passes.mpr h
  cases op <;> simp [command, checkOutcome, hok]

/-- The ways a command completes: with success, with the error of its checks, or past them with AUTH_FAIL or with
ENGINE_FAILURE, which alone may show AUTHOK, and DEC's alone. `exec_completesAs` says that there is no other. -/
inductive CompletesAs (i : Instr) (s : State) : State → Prop
  | success {t : State} (hcheck : checkOutcome i s = .none) (hcode : t.flags.errCode = .none) : CompletesAs i s t
  | checkError (hcheck : checkOutcome i s ≠ .none) : CompletesAs i s (failed s (checkOutcome i s) false)
  | authFail (hcheck : checkOutcome i s = .none) : CompletesAs i s (failed s .authFail false)
  | engineFailure {authOk : Bool} (hcheck : checkOutcome i s = .none) (hauth : i ≠ .dec → authOk = false) :
    CompletesAs i s (failed s .engineFailure authOk)

theorem encNext_completesAs {s : State} (hcheck : checkOutcome .enc s = .none) (eng : Engine) (p : Par) :
    CompletesAs .enc s (encNext eng s p) := by
  unfold encNext
  split
  · exact .engineFailure hcheck fun _ => rfl
  · split
    · exact .success hcheck rfl
    · exact .engineFailure hcheck fun _ => rfl

theorem decNext_completesAs {s : State} (hcheck : checkOutcome .dec s = .none) (eng : Engine) (p : Par) :
    CompletesAs .dec s (decNext eng s p) := by
  unfold decNext
  split
  · exact .engineFailure hcheck fun hdec => absurd rfl hdec
  · split
    · exact .success hcheck rfl
    · exact .engineFailure hcheck fun hdec => absurd rfl hdec

/-- Past Precheck each crypto command raises the errors of R140 and no other. -/
theorem exec_command_completesAs_of_passes {op : CryptoOp} {s : State} {p : Par} (h : Passes op s p) :
    ∃ t, exec (command op) s = .next t ∧ CompletesAs (command op) s t := by
  have hcheck := checkOutcome_of_passes h
  cases op with
  | enc => exact ⟨_, (encCompletes s p h).1, encNext_completesAs hcheck _ p⟩
  | dec =>
    obtain ⟨hmismatch, hmatch⟩ := decCompletes s p h
    by_cases hm : TagMatches s p
    · exact ⟨_, (hmatch hm).1, decNext_completesAs hcheck _ p⟩
    · exact ⟨_, hmismatch hm, .authFail hcheck⟩
  | tag => exact ⟨_, tagCompletes s p h, .success hcheck rfl⟩
  | verify =>
    obtain ⟨hmatch, hmismatch⟩ := verifyCompletes s p h
    by_cases hm : TagMatches s p
    · exact ⟨_, hmatch hm, .success hcheck rfl⟩
    · exact ⟨_, hmismatch hm, .authFail hcheck⟩

theorem exec_command_completesAs (op : CryptoOp) (s : State) :
    ∃ t, exec (command op) s = .next t ∧ CompletesAs (command op) s t := by
  cases hp : precheck op s with
  | ok p => exact exec_command_completesAs_of_passes (precheck_ok_iff_passes.mp hp)
  | error e =>
    obtain rfl := checkOutcome_of_precheck_error hp
    exact ⟨_, exec_command_of_precheck_error hp, .checkError (precheck_error_ne_none hp)⟩

/-- Every command, from every state, completes in one of the ways of `CompletesAs`. -/
theorem exec_completesAs (i : Instr) (s : State) : ∃ t, exec i s = .next t ∧ CompletesAs i s t := by
  cases i with
  | nop => exact ⟨_, rfl, .success rfl rfl⟩
  | enc => exact exec_command_completesAs .enc s
  | dec => exact exec_command_completesAs .dec s
  | tag => exact exec_command_completesAs .tag s
  | verify => exact exec_command_completesAs .verify s
  | zeroize => exact ⟨_, rfl, .success rfl rfl⟩
  | reserved67 _ => exact ⟨_, illegalCommand_eq_failed s, .checkError nofun⟩
  | reserved8F _ => exact ⟨_, illegalCommand_eq_failed s, .checkError nofun⟩
  | illegalUpper _ _ => exact ⟨_, illegalCommand_eq_failed s, .checkError nofun⟩

/-! ### Errors are precise (R136) -/

/-- Settles O27: each way to complete with an error leaves `failed`, and ENGINE_FAILURE alone can have AUTHOK. -/
theorem errorCompletionsArePrecise : Obligations.ErrorCompletionsArePrecise := by
  intro i s t h hcode
  obtain ⟨t', h', hways⟩ := exec_completesAs i s
  cases h.symm.trans h'
  cases hways with
  | success _ hnone => exact absurd hnone hcode
  | checkError _ => exact ⟨rfl, fun _ => rfl, fun _ => rfl⟩
  | authFail _ => exact ⟨rfl, fun _ => rfl, fun _ => rfl⟩
  | engineFailure _ hauth => exact ⟨rfl, hauth, fun hne => absurd rfl hne⟩

/-! ### The checks read no secret (R138; 70_reset_and_hazards R170) -/

section
variable {s s' : State} {len : BitVec 6} (hops : s'.ops = { s.ops with tagInLen := len })
include hops

theorem rangesOk_congr (op : CryptoOp) : rangesOk op s' = rangesOk op s := by
  cases op <;> simp only [rangesOk, outputBound, hops]

variable (hrdy : s'.engRdy = s.engRdy)
include hrdy

theorem precheck_congr (op : CryptoOp) : precheck op s' = precheck op s := by
  simp only [precheck, rangesOk_congr hops, hops, hrdy]

theorem checkOutcome_congr (i : Instr) : checkOutcome i s' = checkOutcome i s := by
  cases i <;> simp only [checkOutcome, precheck_congr hops hrdy]

end

/-- Settles O60: Precheck reads ENGRDY and operand registers other than TAGINLEN, and its error is the completion's. -/
theorem precheckDependsOnNoSecret : Obligations.PrecheckDependsOnNoSecret := by
  refine ⟨fun i s s' hops hrdy => checkOutcome_congr hops hrdy i, fun i s => ?_⟩
  obtain ⟨t, h, hways⟩ := exec_completesAs i s
  refine ⟨t, h, ?_⟩
  cases hways with
  | success hcheck hcode => exact ⟨fun hne => absurd hcheck hne, fun _ => by simp [hcode]⟩
  | checkError hcheck => exact ⟨fun _ => rfl, fun hnone => absurd hnone hcheck⟩
  | authFail hcheck => exact ⟨fun hne => absurd hcheck hne, fun _ => by simp [failed]⟩
  | engineFailure hcheck _ => exact ⟨fun hne => absurd hcheck hne, fun _ => by simp [failed]⟩

end Sys2Proof.Machine

/-! PROOFS. The statements of 70_reset_and_hazards: RESET asserted and released, the end of INIT, and accesses while
busy. -/

namespace Sys2Proof.Machine

open Sys2Proof.Claims

/-! ### RESET asserted (R156, R160) -/

/-- Settles O8: the turn laid down is the assertion of RESET, whose next state the statement writes out. -/
theorem assertingResetClearsTheBlock : Obligations.AssertingResetClearsTheBlock := fun _ _ h => step_cons h

theorem seqTurn_of_rst {s : State} (hr : s.rst = true) : seqTurn s = .next s := by simp [seqTurn, hr]

/-- Every host instruction but the start of `rdbytes` makes an access (30_encoding R79, R84). -/
theorem makesAccess_of_ne_startBytes {hi : HostInstr} (h : ∀ name, hi ≠ .startBytes name) : makesAccess hi = true := by
  cases hi with
  | startBytes name => exact absurd rfl (h name)
  | _ => rfl

/-- The turn of a master that would make an access is refused while RESET is asserted. -/
theorem masterTurn_of_rst {i line : Nat} {hi : HostInstr} {rest : List (Nat × HostInstr)} {m : Master} {s : State}
    (hr : s.rst = true) (ha : makesAccess hi = true) (hm : s.masters[i]? = some m) (hs : m.stopped = none)
    (hp : m.prog = (line, hi) :: rest) : masterTurn i s = .refused .busAccessInReset := by
  simp [masterTurn, hr, ha, hm, hs, hp]

/-- Settles O9: SEQ's turn and a master's access, each by what its turn is with RESET asserted. -/
theorem nothingRunsWhileResetIsAsserted : Obligations.NothingRunsWhileResetIsAsserted := by
  refine ⟨fun s ts h hr => (step_cons h).trans (seqTurn_of_rst hr), ?_⟩
  rintro s i m line hi rest ts ⟨hsch, hm, hstop, hp⟩ hr hne
  rw [step_cons hsch]
  exact masterTurn_of_rst hr (makesAccess_of_ne_startBytes hne) hm hstop hp

/-! ### RESET released (R157) -/

/-- A turn that releases an asserted RESET resets the block again, now with the pin low. -/
theorem step_releaseReset {s : State} {ts : List Turn} (h : s.schedule = .releaseReset :: ts) (hr : s.rst = true) :
    step s = .next { assertReset { s with schedule := ts } with rst := false } :=
  (step_cons h).trans (congrArg Host.Outcome.next (releaseReset_of_rst _ hr))

/-- STATUS depends on the flags, ENGRDY and SEQSTATE only, so a block in INIT with the reset flags reads as after
reset. -/
theorem statusWord_of_reset {s : State} (hf : s.flags = .reset) (hq : s.seqState = .init) :
    statusWord s = if s.engRdy then 0x11 else 0x01 := by
  rw [← statusWord_resetWith]
  simp only [statusWord, State.busy, hf, hq]
  rfl

/-- Settles O10: the block is reset with RESET low, and STATUS shows its flags, ENGRDY and INIT. -/
theorem releasingResetEntersInit : Obligations.ReleasingResetEntersInit := by
  intro s ts h hr
  refine ⟨step_releaseReset h hr, fun t ht => ?_⟩
  cases ht.symm.trans (step_releaseReset h hr)
  exact statusWord_of_reset rfl rfl

/-! ### The end of INIT (R159) -/

theorem seqTurn_of_init {s : State} (hr : s.rst = false) (hq : s.seqState = .init) :
    seqTurn s = .next (endInit s) := by simp [seqTurn, hr, hq]

/-- Settles O11: SEQ's turn is `endInit`, after which the RAM lists no byte and DONE and IE are as before. -/
theorem endOfInitGoesIdle : Obligations.EndOfInitGoesIdle :=
  fun s ts h hr hq => ⟨endInit { s with schedule := ts }, (step_cons h).trans (seqTurn_of_init hr hq), rfl,
    fun _ => rfl, rfl, rfl⟩

/-! ### Writes while busy (R162) -/

/-- Settles O52: a legal write of STATUS is its 4-byte write at 0x024, and any other is ignored. -/
theorem busyWritesAreIgnored : Obligations.BusyWritesAreIgnored := by
  intro off n v s hs hl
  have hlegal := (legalAccess_iff_not_illegal off n).2 hl
  constructor
  · intro hoff
    refine busWrite_of_legal_busy hlegal (fun hr => ?_) hs v
    obtain ⟨hstatus, -⟩ := legalAccess_status hlegal hr
    exact hoff hstatus
  · rintro rfl
    obtain ⟨-, rfl⟩ := legalAccess_status hlegal rfl
    exact busWrite_status v s

/-! ### RAM reads while busy (R163) -/

@[simp] theorem length_drawBytes (n : Nat) (s : State) : (drawBytes n s).length = n := by simp [drawBytes]

theorem getElem_drawBytes (n : Nat) (s : State) (k : Nat) (_h : k < (drawBytes n s).length) :
    (drawBytes n s)[k] = Config.freeByte (s.draws + k) := by simp [drawBytes]

/-- Settles O56: the word is put together from the next `n` draws, each in its lane. -/
theorem busyRamReadsDrawFreshBytes : Obligations.BusyRamReadsDrawFreshBytes := by
  intro i n s hs hn
  refine ⟨fromLanes (drawBytes n s), ?_, fun k hk => ?_⟩
  · rw [busRead_of_natural hn rfl (regionAt_ram (natural_index_lt hn)) fun _ => rfl, readRegion_ram_busy hs]
  · obtain ⟨hwidth, -⟩ := hn
    have hlen : (drawBytes n s).length ≤ 4 := by
      rw [length_drawBytes]
      omega
    have hlane := laneByte_fromLanes hlen (k := k) (by rwa [length_drawBytes])
    rwa [getElem_drawBytes] at hlane

end Sys2Proof.Machine
